-- ==== Sys2Proof/Word.lean ====
section
/-! DEFINITION. The words of the nekohash block (00_scope.md R8, R10): every value is unsigned. The byte-order and
rotation helpers stand in Machine/Bytes.lean. -/

namespace Sys2Proof

/-- `u8` of R8: one byte of MEM, of a ByteBuffer or of a working buffer. -/
abbrev Byte := BitVec 8

/-- `u32` of R8: a register of R23, a command word of R70, a word of Construction B. -/
abbrev Word := BitVec 32

/-- `u64` of R8: the Construction A accumulator, a generator's seed or output. -/
abbrev U64 := BitVec 64

/-- `u128` of R163: the cipher's counter. -/
abbrev U128 := BitVec 128

/-- A *ByteBuffer* of R10, first byte first. -/
abbrev Bytes := List Byte

end Sys2Proof
end

