-- ==== Sys2Proof/Syntax.lean ====
section
/-! DEFINITION. What can be written down: the eleven command words (30_encoding.md R71), the register names
(10_state.md R23), the host's accesses and script statements (30_encoding.md R77, R78), and the agents (R20). -/

namespace Sys2Proof

/-- The commands, one constructor per row of the opcode table. No command carries an operand (R76): every operand
comes from the snapshot registers. -/
inductive Instr where
  /-- HASHA, Construction A `hash(data)` (R105). -/
  | hasha
  /-- HASHB, Construction B `hash(data)` (R126). -/
  | hashb
  /-- HASHC, Construction C `hash(data)` (R148). -/
  | hashc
  /-- RSTA, Construction A `reset()` (R107). -/
  | rsta
  /-- RSTB, Construction B `reset()` (R128). -/
  | rstb
  /-- RSTC, Construction C `reset()` (R150). -/
  | rstc
  /-- ENC with G = 0: encrypt under the key at KEY (R160). -/
  | enc
  /-- ENC with G = 1: encrypt under a key drawn from the entropy source (R160, R161). -/
  | encG
  /-- DEC, decrypt an envelope (R165). -/
  | dec
  /-- STRETCH, iterate Construction A (R180). -/
  | stretch
  /-- DERIVE, stretch password and salt (R183). -/
  | derive
deriving DecidableEq, Repr

/-- Why a command word is illegal: the four grounds of R74 (their order DESIGN CHOICE, log 12). -/
inductive Illegal where
  /-- OP is 0x00. -/
  | opcodeZero
  /-- OP is in 0x0B to 0xFF. -/
  | opcodeReserved
  /-- G = 1 with an OP other than 0x07. -/
  | generateFlag
  /-- A bit of RSV is set. -/
  | reservedBits
deriving DecidableEq, Repr

/-- The result of `Decode` (R81): a command, or `Illegal`, with its ground. -/
inductive Decoded where
  | legal (i : Instr)
  | illegal (why : Illegal)
deriving DecidableEq, Repr

/-- The registers of R23, by name. -/
inductive Reg where
  | CMD | STATUS | SRC | SRC_LEN | DST | RES_LEN | KEY | KEY_LEN | AUX | AUX_LEN | ITER | OSIZE
  | A_SEED_LO | A_SEED_HI | A_SIZE | B_MAGIC | C_ROUNDS
  | OSIZE_A | OSIZE_B | OSIZE_C | IDENT_A | IDENT_B | IDENT_C | MEMSIZE
deriving DecidableEq, Repr

/-- The access rights of R23. -/
inductive Access where
  | readWrite | readOnly | writeOnly
deriving DecidableEq, Repr

/-- Who takes a step: the agents of R20 that can act on their own, and the platform's reset input (R230).
The entropy source only answers the unit. -/
inductive Agent where
  | host | unit | reset
deriving DecidableEq, Repr

/-- One thing the host does in one of its turns: at most one access to the block (R60), or a move of its own
(R77's branches). The first four are the accesses the tables of 95_test_vectors.md section 8 write
`W32`, `R32`, `W8`, `R8`; a host variable is a number. -/
inductive HostOp where
  /-- A register write of `width` bits at byte offset `off`; only 32 is legal (R24). -/
  | writeReg (off : BitVec 8) (width : Nat) (v : Word)
  /-- A register read of `width` bits at byte offset `off` into variable `t`. -/
  | readReg (off : BitVec 8) (width : Nat) (t : Nat)
  /-- A write of one MEM byte (R51). -/
  | writeMem (a : Nat) (b : Byte)
  /-- A read of one MEM byte (R51), appended to the bytes variable `t` holds. -/
  | readMem (a : Nat) (t : Nat)
  /-- Make variable `t` the empty byte string: the start of an `rdm` (no access). -/
  | clear (t : Nat)
  /-- `bnz t, mask, target`: go to `target` if `t & mask ≠ 0` (no access). -/
  | bnz (t : Nat) (mask : Nat) (target : Nat)
  /-- `b target` (no access). -/
  | jump (target : Nat)
deriving DecidableEq, Repr

/-- What a host variable holds: the 32-bit value of an `rd`, or the bytes of an `rdm`. -/
inductive HostVal where
  | word (w : Word)
  | bytes (b : Bytes)
deriving DecidableEq, Repr

/-- The script statements of R77 and the pseudo-instructions of R78. Labels and variables are numbers. -/
inductive Stmt where
  /-- `wr REG, v` -/
  | wr (r : Reg) (v : Word)
  /-- `rd REG -> t` -/
  | rd (r : Reg) (t : Nat)
  /-- `wrm a, "hex"` -/
  | wrm (a : Nat) (b : Bytes)
  /-- `rdm a, n -> t` -/
  | rdm (a n : Nat) (t : Nat)
  /-- `cmd MNEMONIC` -/
  | cmd (i : Instr)
  /-- `cmd w`, legal or not -/
  | cmdWord (w : Word)
  /-- `bnz t, mask, label` -/
  | bnz (t : Nat) (mask : Nat) (label : Nat)
  /-- `b label` -/
  | b (label : Nat)
  /-- `name:` -/
  | label (name : Nat)
  /-- `poll -> t` -/
  | poll (t : Nat)
  /-- `run M -> t` -/
  | run (i : Instr) (t : Nat)
  /-- `seta v64` -/
  | seta (v : U64)
  /-- `io s, n, d` -/
  | io (s n d : Word)
  /-- `key k, n` -/
  | key (k n : Word)
  /-- `aux a, n` -/
  | aux (a n : Word)
  /-- `hasha d, s, n -> t` -/
  | hasha (d s n : Word) (t : Nat)
  /-- `hashb d, s, n -> t` -/
  | hashb (d s n : Word) (t : Nat)
  /-- `hashc d, s, n -> t` -/
  | hashc (d s n : Word) (t : Nat)
deriving DecidableEq, Repr

end Sys2Proof
end

