-- ==== Sys2Proof/Decode.lean ====
section
/-! DEFINITION. The command format CMD32 (30_encoding.md R70 to R75, R81): decoding, total on all 2^32 words, and encoding. -/

namespace Sys2Proof

/-- Field OP = w[7:0] (R70). -/
def opField (w : Word) : BitVec 8 := w.extractLsb' 0 8

/-- Field G = w[8] (R70). -/
def gField (w : Word) : BitVec 1 := w.extractLsb' 8 1

/-- Field RSV = w[31:9] (R70). -/
def rsvField (w : Word) : BitVec 23 := w.extractLsb' 9 23

/-- `case w[7:0] of` of R81, the opcode map of R71; only ENC looks at G. -/
def decodeOp (op : Nat) (g : BitVec 1) : Decoded :=
  match op with
  | 0x00 => .illegal .opcodeZero
  | 0x01 => .legal .hasha
  | 0x02 => .legal .hashb
  | 0x03 => .legal .hashc
  | 0x04 => .legal .rsta
  | 0x05 => .legal .rstb
  | 0x06 => .legal .rstc
  | 0x07 => if g = 1 then .legal .encG else .legal .enc
  | 0x08 => .legal .dec
  | 0x09 => .legal .stretch
  | 0x0A => .legal .derive
  | _ => .illegal .opcodeReserved

/-- `Decode(w)` of R81. -/
def decode (w : Word) : Decoded :=
  if rsvField w ≠ 0 then .illegal .reservedBits
  else if gField w = 1 ∧ opField w ≠ 0x07 then .illegal .generateFlag
  else decodeOp (opField w).toNat (gField w)

/-- The OP value of a command (R71). -/
def opcodeOf : Instr → BitVec 8
  | .hasha => 0x01
  | .hashb => 0x02
  | .hashc => 0x03
  | .rsta => 0x04
  | .rstb => 0x05
  | .rstc => 0x06
  | .enc => 0x07
  | .encG => 0x07
  | .dec => 0x08
  | .stretch => 0x09
  | .derive => 0x0A

/-- The G value of a command: 1 for ENC.G alone (R72). -/
def gOf : Instr → BitVec 1
  | .encG => 1
  | .hasha | .hashb | .hashc | .rsta | .rstb | .rstc | .enc | .dec | .stretch | .derive => 0

/-- The command word of a command: RSV, G and OP side by side (R70), RSV all zero (R73). -/
def encode (i : Instr) : Word := (0 : BitVec 23) ++ (gOf i ++ opcodeOf i)

/-- What `decode` reads from a row of the opcode table given as a number. Every command is one 32-bit word (R75), so a
row of more bits is none. -/
def decodeTableWord (nbits w : Nat) : Option Instr :=
  if nbits ≤ 32 then
    match decode (BitVec.ofNat 32 (w % 2 ^ nbits)) with
    | .legal i => some i
    | .illegal _ => none
  else none

end Sys2Proof
end

