-- ==== Sys2Proof/Machine/Bytes.lean ====
section
/-! DEFINITION. Byte order and rotation (00_scope.md R9, R10; 43_ctr_cipher.md R163). -/

namespace Sys2Proof.Machine

/-- `rotl_N(x, r)` of R9, for 0 < r < N. -/
def rotl {n : Nat} (x : BitVec n) (r : Nat) : BitVec n := (x <<< r) ||| (x >>> (n - r))

/-- The n low bytes of v, least significant first. -/
def leBytes : Nat → Nat → Bytes
  | 0, _ => []
  | n + 1, v => BitVec.ofNat 8 v :: leBytes n (v / 256)

/-- `le_32(v)` of R10. -/
def le32 (v : Word) : Bytes := leBytes 4 v.toNat

/-- `le_64(v)` of R10. -/
def le64 (v : U64) : Bytes := leBytes 8 v.toNat

/-- `from_le(b)` of R10: `Σ b[i]·2^(8i)`. -/
def fromLe : Bytes → Nat
  | [] => 0
  | b :: rest => b.toNat + 256 * fromLe rest

/-- `from_be(b)` of R163: b[0] most significant. -/
def fromBe (b : Bytes) : Nat := fromLe b.reverse

/-- `be_128(x)` of R163: the 16 bytes of x, most significant first. -/
def be128 (x : U128) : Bytes := (leBytes 16 x.toNat).reverse

/-- `be_32(x)`, for the reference cipher's words. -/
def be32 (x : Word) : Bytes := (leBytes 4 x.toNat).reverse

/-- Bytewise XOR of two byte strings, as long as the shorter. -/
def xorBytes (a b : Bytes) : Bytes := List.zipWith (· ^^^ ·) a b

end Sys2Proof.Machine
end

