-- ==== Sys2Proof/Machine/Aes.lean ====
section
/-! DEFINITION. The reference cipher of 00_scope.md R16: AES-256, forward block encryption. PRESUMED (log 5): the spec gives
the name and FIPS-197, not the algorithm; what stands here is FIPS-197's. The section numbers below are FIPS-197's. -/

namespace Sys2Proof.Machine

/-- The S-box of 5.1.1, one number of 16 bytes for each row x (the high half of the byte), column 0 first. -/
def sboxRows : List Nat :=
  [0x637c777bf26b6fc53001672bfed7ab76, 0xca82c97dfa5947f0add4a2af9ca472c0,
   0xb7fd9326363ff7cc34a5e5f171d83115, 0x04c723c31896059a071280e2eb27b275] ++
  [0x09832c1a1b6e5aa0523bd6b329e32f84, 0x53d100ed20fcb15b6acbbe394a4c58cf,
   0xd0efaafb434d338545f9027f503c9fa8, 0x51a3408f929d38f5bcb6da2110fff3d2] ++
  [0xcd0c13ec5f974417c4a77e3d645d1973, 0x60814fdc222a908846eeb814de5e0bdb,
   0xe0323a0a4906245cc2d3ac629195e479, 0xe7c8376d8dd54ea96c56f4ea657aae08] ++
  [0xba78252e1ca6b4c6e8dd741f4bbd8b8a, 0x703eb5664803f60e613557b986c11d9e,
   0xe1f8981169d98e949b1e87e9ce5528df, 0x8ca1890dbfe6426841992d0fb054bb16]

/-- The S-box substitution of one byte. -/
def subByte (b : Byte) : Byte :=
  BitVec.ofNat 8 (sboxRows.getD (b.toNat / 16) 0 >>> (8 * (15 - b.toNat % 16)))

/-- ShiftRows (5.1.2): byte r + 4c comes from row r of column c + r. -/
def shiftRows (s : Bytes) : Bytes :=
  (List.range 16).map fun j => s.getD (j % 4 + 4 * ((j / 4 + j % 4) % 4)) 0

/-- Multiplication by x in GF(2^8) (4.2.1). -/
def xtime (b : Byte) : Byte := if b.getLsbD 7 then (b <<< 1) ^^^ 0x1b else b <<< 1

/-- MixColumns (5.1.3), one column after another. -/
def mixColumns : Bytes → Bytes
  | a :: b :: c :: d :: rest =>
    (xtime a ^^^ xtime b ^^^ b ^^^ c ^^^ d) :: (a ^^^ xtime b ^^^ xtime c ^^^ c ^^^ d) ::
      (a ^^^ b ^^^ xtime c ^^^ xtime d ^^^ d) :: (xtime a ^^^ a ^^^ b ^^^ c ^^^ xtime d) :: mixColumns rest
  | rest => rest

/-- SubWord (5.2). -/
def subWord (w : Word) : Word := BitVec.ofNat 32 (fromBe ((be32 w).map subByte))

/-- The word i of the key schedule (5.2), for Nk = 8, from the word before it and the word eight before it. -/
def scheduleWord (i : Nat) (before eightBefore : Word) : Word :=
  if i % 8 = 0 then eightBefore ^^^ subWord (rotl before 8) ^^^ (BitVec.ofNat 32 (1 <<< (i / 8 - 1)) <<< 24)
  else if i % 8 = 4 then eightBefore ^^^ subWord before
  else eightBefore ^^^ before

/-- n more words of the key schedule, from word i on; the words so far are listed last first. -/
def expandKey : Nat → Nat → List Word → List Word
  | 0, _, ws => ws
  | n + 1, i, ws => expandKey n (i + 1) (scheduleWord i (ws.getD 0 0) (ws.getD 7 0) :: ws)

/-- The next n words of a byte string, most significant byte first. -/
def beWords : Nat → Bytes → List Word
  | 0, _ => []
  | n + 1, b => BitVec.ofNat 32 (fromBe (b.take 4)) :: beWords n (b.drop 4)

/-- The expanded key of a 32-byte key: 60 words, as 240 bytes. -/
def keySchedule (key : Bytes) : Bytes := (expandKey 52 8 (beWords 8 key).reverse).reverse.flatMap be32

/-- The rounds of 5.1 after the first AddRoundKey: n more rounds on the block s with the round keys ks, the last of them
without MixColumns. -/
def aesRounds : Nat → Bytes → Bytes → Bytes
  | 0, _, s => s
  | 1, ks, s => xorBytes (shiftRows (s.map subByte)) (ks.take 16)
  | n + 2, ks, s =>
    aesRounds (n + 1) (ks.drop 16) (xorBytes (mixColumns (shiftRows (s.map subByte))) (ks.take 16))

/-- AES-256 of one 16-byte block under a 32-byte key (5.1): 14 rounds. -/
def aes256 (key block : Bytes) : Bytes :=
  let ks := keySchedule key
  aesRounds 14 (ks.drop 16) (xorBytes block (ks.take 16))

end Sys2Proof.Machine
end

