-- ==== Sys2Proof/Machine/Constants.lean ====
section
/-! DEFINITION. The constants of 00_scope.md R6, by name, so that a corrected literal changes one place
(91_not_in_source.md N2), and the capability constants of 10_state.md R42 to R44. -/

namespace Sys2Proof.Machine

/-- K_A, the A squeeze multiplier (R6). -/
def kA : U64 := 0x6c508bbb9c09c9df

/-- The A absorb rotation (R6). -/
def aRotation : Nat := 13

/-- The A chunk size in bytes (R6). -/
def aChunk : Nat := 8

/-- The B output size (R6, R42). -/
def bSize : Nat := 16

/-- The B byte rotation (R6). -/
def bByteRotation : Nat := 3

/-- The B word rotation (R6). -/
def bWordRotation : Nat := 7

/-- The C output and state size (R6, R43). -/
def cSize : Nat := 32

/-- The C byte rotation (R6). -/
def cByteRotation : Nat := 3

/-- The C avalanche multiplier (R6). -/
def cMultiplier : Byte := 0xB5

/-- The key length (R6). -/
def keyLength : Nat := 32

/-- The IV length, which is the cipher's block length (R6, R16). -/
def ivLength : Nat := 16

/-- The DERIVE iterations (R6). -/
def deriveIterations : Nat := 10000

/-- The DERIVE output size (R6). -/
def deriveSize : Nat := 32

/-- IDENT_A, "SMIX" (R44). -/
def identA : Word := 0x58494D53

/-- IDENT_B, "MMIX" (R44). -/
def identB : Word := 0x58494D4D

/-- IDENT_C, "MRDF" (R44). -/
def identC : Word := 0x4644524D

end Sys2Proof.Machine
end

