-- ==== Sys2Proof/Config.lean ====
section
/-! DEFINITION. What an implementation of the block fixes (00_scope.md R7) and the free values (93_implementation_defined.md
U7, U8). Parameters are plain data that State holds, so that a claim over every state is a claim for every value of them;
the functions among them are named by a choice whose `other` is an opaque function: nothing can be proved of its values.
The named constants of R6 stand in Machine/Constants.lean. -/

namespace Sys2Proof

/-- Parameter `PRNG` of R7: the reference SplitMix64 (R15), or another generator, numbered. -/
inductive PrngChoice where
  | splitMix64
  | other (n : Nat)
deriving DecidableEq, Repr

/-- Parameter `CIPHER` of R7: the reference AES-256 (R16), or another block cipher, numbered. -/
inductive CipherChoice where
  | aes256
  | other (n : Nat)
deriving DecidableEq, Repr

/-- The parameters of R7 but `ENTROPY` and the latency, which State holds as the oracle's answers and the schedule. -/
structure Params where
  /-- `MEM_SIZE`, in bytes; 1 ≤ MEM_SIZE ≤ 2^31 (R45). -/
  memSize : Nat
  /-- `PRNG` -/
  prng : PrngChoice
  /-- `CIPHER` -/
  cipher : CipherChoice
  /-- `C_SEED`, 32 bytes (R46). -/
  cSeed : Vector Byte 32
  /-- `A_DEFAULT_SEED` -/
  aDefaultSeed : U64
  /-- `B_DEFAULT_MAGIC` -/
  bDefaultMagic : Word
deriving DecidableEq, Repr

/-- The reference values of R7. C_SEED is the ASCII string `nekohash/C/multi-round-diffusion`
in the hex R7 gives. -/
def Params.reference : Params where
  memSize := 65536
  prng := .splitMix64
  cipher := .aes256
  cSeed := #v[0x6e, 0x65, 0x6b, 0x6f, 0x68, 0x61, 0x73, 0x68, 0x2f, 0x43, 0x2f, 0x6d, 0x75, 0x6c, 0x74, 0x69,
    0x2d, 0x72, 0x6f, 0x75, 0x6e, 0x64, 0x2d, 0x64, 0x69, 0x66, 0x66, 0x75, 0x73, 0x69, 0x6f, 0x6e]
  aDefaultSeed := 0
  bDefaultMagic := 0

/-- The outputs of generator `other n`: the k-th (from 0) from a seed. By R13 a generator is a pure function, so this
is all it can show. Free value (log 1). -/
opaque Config.otherPrng : (n : Nat) → (seed : U64) → (k : Nat) → U64

/-- The block encryption of cipher `other n` (R7, R16), of a 32-byte key and a 16-byte block. Free value (log 1). -/
opaque Config.otherCipher : (n : Nat) → (key block : Bytes) → U128

/-- Whether the entropy source fails at its k-th draw, where State lists no answer (U8). Free value (log 2). -/
opaque Config.entropyFails : (k : Nat) → Bool

/-- Byte i of the entropy source's k-th draw, where State lists none (U7). Free value (log 2). -/
opaque Config.entropyByte : (k i : Nat) → Byte

/-- What a host variable that no statement has assigned reads as, as a number; R77 does not say. Free value (log 6). -/
opaque Config.unassignedVariable : (t : Nat) → Nat

end Sys2Proof
end

