-- ==== Sys2Proof/Machine/State.lean ====
section
/-! DEFINITION. The state of the nekohash block and of the agents around it, and the machine after reset
(10_state.md R20 to R49, 70_reset_and_hazards.md R231). -/

namespace Sys2Proof.Machine

/-- The read-write registers of R23, which the snapshot copies (R22). -/
structure Regs where
  src : Word
  srcLen : Word
  dst : Word
  key : Word
  keyLen : Word
  aux : Word
  auxLen : Word
  iter : Word
  osize : Word
  aSeedLo : Word
  aSeedHi : Word
  aSize : Word
  bMagic : Word
  cRounds : Word
deriving DecidableEq, Repr

/-- The command snapshot (R22): the command word and the read-write registers at acceptance. -/
structure Snapshot where
  word : Word
  regs : Regs
deriving DecidableEq, Repr

/-- MEM (R51): the written bytes, by rising address. A byte that is not listed is unwritten (R52). -/
abbrev Memory := List Host.Cell

/-- One answer of the entropy source (R206, R214). -/
inductive EntropyAnswer where
  /-- The draw fails. -/
  | fails
  /-- The draw returns these bytes; a byte the draw asks for beyond them is a free value, one it does not ask for is not used. -/
  | returns (b : Bytes)
deriving DecidableEq, Repr

/-- The entropy source (R214), the model's own field: the answers it will give next, and how many draws were made.
Where no answer is listed, the draw is the free value of Config (DESIGN CHOICE, log 2). -/
structure EntropySource where
  answers : List EntropyAnswer
  drawn : Nat
deriving DecidableEq, Repr

/-- The host (R20, R77), the model's own field: its program, its position in it, and its variables
(DESIGN CHOICE, log 3). -/
structure HostAgent where
  prog : List HostOp
  pos : Nat
  vars : List (Nat × HostVal)
deriving DecidableEq, Repr

/-- Everything the spec gives the machine (R20), and the three fields that hold the agents around it. -/
structure State where
  /-- The block's parameters (R7), C_SEED (R46) among them; no step changes them. -/
  params : Params
  /-- The live read-write registers (R23). -/
  regs : Regs
  /-- STATUS (R26), as software reads it. -/
  status : Word
  /-- RES_LEN (R30). -/
  resLen : Word
  /-- The pending command's snapshot (R22, R49). -/
  pending : Option Snapshot
  /-- MEM (R51). -/
  mem : Memory
  /-- The entropy source. -/
  entropy : EntropySource
  /-- The host. -/
  host : HostAgent
  /-- Who takes the next steps; where it is empty, the unit if a command is pending, else the host (R240, R241);
  DESIGN CHOICE, log 3. -/
  sched : List Agent
deriving DecidableEq, Repr

/-- The error codes of STATUS.ERRCODE (R202). Raising one is the block's exception (R200): a next state, not a stop. -/
inductive ErrorCode where
  /-- STRETCH with ITER = 0 or OSIZE = 0; DERIVE with an empty password or salt. -/
  | invalidInput
  /-- ENC with G = 0, or DEC, with KEY_LEN ≠ 32. -/
  | keyError
  /-- Reserved; never raised (R205). -/
  | encodingError
  /-- DEC with SRC_LEN < 16. -/
  | cryptoError
  /-- ENC whose entropy draw fails (R206). -/
  | hashError
  /-- The command word decodes to Illegal (R74). -/
  | illegalCommand
  /-- A command operand region is out of MEM (R55). -/
  | addressError
deriving DecidableEq, Repr

/-- The model faults of R207, as stops of the model (DEDUCED, log 4): a run that reaches one has no next state, so none clears it. -/
inductive Fault where
  /-- Raised by a host turn: a register access that is misaligned or not 32 bits wide (R24), a MEM access at an address
  ≥ MEM_SIZE (R51), a CMD write or MEM access while BUSY (R237). Safe: what the hardware does is not specified (U1 to U4).
  It is the one name where the byte read while BUSY is unwritten too (DESIGN CHOICE, log 13). -/
  | hostProtocol
  /-- Raised by a host turn or a command that reads an unwritten MEM byte (R52). Safe: the hardware returns some byte (U5). -/
  | unwrittenRead
deriving DecidableEq, Repr

/-- What the model gives no meaning. -/
inductive Refusal where
  /-- An instruction that has no meaning yet, by its mnemonic. No arm of exec raises it. Safe. -/
  | notModelled (mnemonic : String)
  /-- Raised by every command's meaning where it is asked of a state with no snapshot: there is no command to execute
  (R82), and step never asks it. Safe. -/
  | noPendingCommand
deriving DecidableEq, Repr

/-- The reset values of R231 for the read-write registers. -/
def Regs.afterReset (p : Params) : Regs where
  src := 0
  srcLen := 0
  dst := 0
  key := 0
  keyLen := 0
  aux := 0
  auxLen := 0
  iter := 0
  osize := 0
  aSeedLo := p.aDefaultSeed.extractLsb' 0 32
  aSeedHi := p.aDefaultSeed.extractLsb' 32 32
  aSize := 32
  bMagic := p.bDefaultMagic
  cRounds := 8

/-- The block with parameters p right after reset (R231): idle, nothing pending, every MEM byte unwritten (R233);
no entropy answer listed, no host program, no schedule (DESIGN CHOICE, logs 2 and 3). -/
def State.afterReset (p : Params) : State where
  params := p
  regs := Regs.afterReset p
  status := 0
  resLen := 0
  pending := none
  mem := []
  entropy := ⟨[], 0⟩
  host := ⟨[], 0, []⟩
  sched := []

/-- The machine right after reset, with the reference values of R7 for the parameters (DESIGN CHOICE, log 1). -/
def State.reset : State := State.afterReset Params.reference

end Sys2Proof.Machine
end

