-- ==== Sys2Proof/Machine/Flags.lean ====
section
/-! DEFINITION. STATUS (10_state.md R26, 60_exceptions.md R201, R202): its fields, and the values acceptance, completion and
error give it. The block has no condition flags (R48). -/

namespace Sys2Proof.Machine

/-- The code of an error (R202). -/
def errorNumber : ErrorCode → Nat
  | .invalidInput => 1
  | .keyError => 2
  | .encodingError => 3
  | .cryptoError => 4
  | .hashError => 5
  | .illegalCommand => 6
  | .addressError => 7

/-- STATUS after acceptance: BUSY alone (R80). -/
def statusBusy : Word := 0x1

/-- STATUS after `complete`: DONE alone (R84). -/
def statusDone : Word := 0x2

/-- STATUS after `raise e`: `0x6 | (E << 8)`, DONE, ERR and the code (R201). -/
def statusError (e : ErrorCode) : Word := 0x6 ||| (BitVec.ofNat 32 (errorNumber e) <<< 8)

/-- STATUS.BUSY, bit 0 (R26). -/
def statusBUSY (w : Word) : Bool := w.getLsbD 0

/-- STATUS.DONE, bit 1 (R26). -/
def statusDONE (w : Word) : Bool := w.getLsbD 1

/-- STATUS.ERR, bit 2 (R26). -/
def statusERR (w : Word) : Bool := w.getLsbD 2

/-- STATUS.ERRCODE, bits 11:8 (R26). -/
def statusERRCODE (w : Word) : BitVec 4 := w.extractLsb' 8 4

/-- The legal values of STATUS while no command is pending: 0, 0x2, and `0x6 | (c << 8)` for c in 1, 2, 4, 5, 6, 7 (R26). -/
def statusIdleLegal (w : Word) : Bool :=
  decide (w ∈ [0x0, 0x2, 0x106, 0x206, 0x406, 0x506, 0x606, 0x706])

end Sys2Proof.Machine
end

