-- ==== Sys2Proof/Machine/Memory.lean ====
section
/-! DEFINITION. MEM as a list of written bytes (20_memory.md R51, R52): what an address reads as, writing a run of bytes,
and the canonical form. An unlisted address reads as nothing: it is unwritten. -/

namespace Sys2Proof.Machine

/-- What MEM[a] holds: its value, or none while it is unwritten (R52). -/
def readByte : Memory → Nat → Option Byte
  | [], _ => none
  | c :: rest, a => if c.1 = a then some c.2 else readByte rest a

/-- MEM[a..a+n), if every byte of it is written. -/
def readBytes (m : Memory) : Nat → Nat → Option Bytes
  | _, 0 => some []
  | a, n + 1 =>
    match readByte m a, readBytes m (a + 1) n with
    | some b, some rest => some (b :: rest)
    | _, _ => none

/-- The cells that hold the bytes b from address a on. -/
def cellsAt (a : Nat) : Bytes → Memory
  | [] => []
  | b :: rest => (a, b) :: cellsAt (a + 1) rest

/-- MEM after the bytes b are written at MEM[a..a+b.length): what lies below stays, then b, then what lies above. -/
def writeBytes (m : Memory) (a : Nat) (b : Bytes) : Memory :=
  m.filter (fun c => decide (c.1 < a)) ++ cellsAt a b ++ m.filter (fun c => decide (a + b.length ≤ c.1))

/-- The addresses rise strictly. As an unlisted address reads as nothing, no entry can equal what it would read as
unlisted. -/
def Memory.rising : Memory → Bool
  | [] => true
  | [_] => true
  | c :: d :: rest => decide (c.1 < d.1) && Memory.rising (d :: rest)

/-- The canonical form, for a MEM of n bytes: addresses strictly rising, and below n (R51). -/
def Memory.wf (n : Nat) (m : Memory) : Bool := Memory.rising m && m.all (fun c => decide (c.1 < n))

end Sys2Proof.Machine
end

