-- ==== Sys2Proof/Machine/Ops.lean ====
section
/-! DEFINITION. The named operations over the state: accepting a command (30_encoding.md R80), completing it (R84), raising
an error (60_exceptions.md R201; the block's one exception, R210), MemRead and MemWrite (00_scope.md R11), the entropy draw
(60_exceptions.md R206), hardware reset (70_reset_and_hazards.md R230 to R233), and the register map (10_state.md R23, R24). -/

namespace Sys2Proof.Machine

/-- What a step answers. -/
abbrev Out := Host.Outcome State Fault Refusal

/-- Acceptance of command word w (R80): snapshot and STATUS, nothing else; w is not decoded. -/
def accept (w : Word) (s : State) : State :=
  { s with pending := some ⟨w, s.regs⟩, status := statusBusy }

/-- `complete(n)` (R84). -/
def complete (n : Nat) (s : State) : State :=
  { s with resLen := BitVec.ofNat 32 n, status := statusDone, pending := none }

/-- `raise e` (R201): the command ends with STATUS = 0x6 | (e << 8) and RES_LEN = 0; the snapshot is discarded; no MEM byte
and no other register changes. There is no trap, no saved pc and no handler (R200, R210); nothing returns from it: the next
command starts from the ordinary idle state (R211). -/
def raiseError (e : ErrorCode) (s : State) : State :=
  { s with resLen := 0, status := statusError e, pending := none }

/-- `MemRead(addr, n)` of a command or the host, going on with the bytes (R11); reading an unwritten byte is the model
fault UnwrittenRead (R52). -/
def memRead (s : State) (addr n : Nat) (go : Bytes → Out) : Out :=
  match readBytes s.mem addr n with
  | some b => go b
  | none => .fault .unwrittenRead

/-- `MemWrite(addr, n, b)` (R11), n being the length of b. -/
def memWrite (addr : Nat) (b : Bytes) (s : State) : State :=
  { s with mem := writeBytes s.mem addr b }

/-- The operand (a, n) is in range: `a + n ≤ MEM_SIZE`, with no wrap (R55). -/
def inRange (s : State) (a n : Nat) : Bool := decide (a + n ≤ s.params.memSize)

/-- The n bytes a successful draw returns as draw k: the listed bytes, and free values past their end. -/
def drawnBytes (k n : Nat) (listed : Bytes) : Bytes :=
  (List.range n).map fun i => listed[i]?.getD (Config.entropyByte k i)

/-- `Entropy(n)` (R11, R206): n bytes or a failure, and the source after the draw. -/
def entropyDraw (n : Nat) (e : EntropySource) : Option Bytes × EntropySource :=
  match e.answers with
  | .returns b :: rest => (some (drawnBytes e.drawn n b), ⟨rest, e.drawn + 1⟩)
  | .fails :: rest => (none, ⟨rest, e.drawn + 1⟩)
  | [] =>
    (if Config.entropyFails e.drawn then none else some (drawnBytes e.drawn n []), ⟨[], e.drawn + 1⟩)

/-- Hardware reset (R230 to R234): registers, STATUS and RES_LEN to their reset values, no pending command, every MEM byte
unwritten; the parameters stay, and the agents around the block are not reset (DESIGN CHOICE,
log 7). -/
def hardReset (s : State) : State :=
  { State.afterReset s.params with entropy := s.entropy, host := s.host, sched := s.sched }

/-- The byte offset of a register (R23). -/
def regOffset : Reg → BitVec 8
  | .CMD => 0x00
  | .STATUS => 0x04
  | .SRC => 0x08
  | .SRC_LEN => 0x0C
  | .DST => 0x10
  | .RES_LEN => 0x14
  | .KEY => 0x18
  | .KEY_LEN => 0x1C
  | .AUX => 0x20
  | .AUX_LEN => 0x24
  | .ITER => 0x28
  | .OSIZE => 0x2C
  | .A_SEED_LO => 0x30
  | .A_SEED_HI => 0x34
  | .A_SIZE => 0x38
  | .B_MAGIC => 0x3C
  | .C_ROUNDS => 0x40
  | .OSIZE_A => 0x44
  | .OSIZE_B => 0x48
  | .OSIZE_C => 0x4C
  | .IDENT_A => 0x50
  | .IDENT_B => 0x54
  | .IDENT_C => 0x58
  | .MEMSIZE => 0x5C

/-- The registers in the order of their offsets (R23). -/
def allRegs : List Reg :=
  [.CMD, .STATUS, .SRC, .SRC_LEN, .DST, .RES_LEN, .KEY, .KEY_LEN, .AUX, .AUX_LEN, .ITER, .OSIZE,
   .A_SEED_LO, .A_SEED_HI, .A_SIZE, .B_MAGIC, .C_ROUNDS,
   .OSIZE_A, .OSIZE_B, .OSIZE_C, .IDENT_A, .IDENT_B, .IDENT_C, .MEMSIZE]

/-- The register at an offset; none where the offset is unmapped (R24). -/
def regAt (off : BitVec 8) : Option Reg := allRegs.find? fun r => regOffset r == off

/-- The access rights of a register (R23). -/
def regAccess : Reg → Access
  | .CMD => .writeOnly
  | .STATUS | .RES_LEN | .OSIZE_A | .OSIZE_B | .OSIZE_C | .IDENT_A | .IDENT_B | .IDENT_C | .MEMSIZE => .readOnly
  | .SRC | .SRC_LEN | .DST | .KEY | .KEY_LEN | .AUX | .AUX_LEN | .ITER | .OSIZE | .A_SEED_LO | .A_SEED_HI
  | .A_SIZE | .B_MAGIC | .C_ROUNDS => .readWrite

/-- What a register reads as (R23 to R45): the live registers, never the snapshot; CMD reads 0. -/
def readReg (s : State) : Reg → Word
  | .CMD => 0
  | .STATUS => s.status
  | .SRC => s.regs.src
  | .SRC_LEN => s.regs.srcLen
  | .DST => s.regs.dst
  | .RES_LEN => s.resLen
  | .KEY => s.regs.key
  | .KEY_LEN => s.regs.keyLen
  | .AUX => s.regs.aux
  | .AUX_LEN => s.regs.auxLen
  | .ITER => s.regs.iter
  | .OSIZE => s.regs.osize
  | .A_SEED_LO => s.regs.aSeedLo
  | .A_SEED_HI => s.regs.aSeedHi
  | .A_SIZE => s.regs.aSize
  | .B_MAGIC => s.regs.bMagic
  | .C_ROUNDS => s.regs.cRounds
  | .OSIZE_A => s.regs.aSize
  | .OSIZE_B => BitVec.ofNat 32 bSize
  | .OSIZE_C => BitVec.ofNat 32 cSize
  | .IDENT_A => identA
  | .IDENT_B => identB
  | .IDENT_C => identC
  | .MEMSIZE => BitVec.ofNat 32 s.params.memSize

/-- What an aligned read at an offset returns: the register's value, or 0 at an unmapped offset (R24). -/
def readOffset (s : State) (off : BitVec 8) : Word :=
  match regAt off with
  | some r => readReg s r
  | none => 0

/-- A write of v to a read-write register; a write to any other leaves the registers as they are (R24). -/
def writeRegs (r : Reg) (v : Word) (x : Regs) : Regs :=
  match r with
  | .SRC => { x with src := v }
  | .SRC_LEN => { x with srcLen := v }
  | .DST => { x with dst := v }
  | .KEY => { x with key := v }
  | .KEY_LEN => { x with keyLen := v }
  | .AUX => { x with aux := v }
  | .AUX_LEN => { x with auxLen := v }
  | .ITER => { x with iter := v }
  | .OSIZE => { x with osize := v }
  | .A_SEED_LO => { x with aSeedLo := v }
  | .A_SEED_HI => { x with aSeedHi := v }
  | .A_SIZE => { x with aSize := v }
  | .B_MAGIC => { x with bMagic := v }
  | .C_ROUNDS => { x with cRounds := v }
  | .CMD | .STATUS | .RES_LEN | .OSIZE_A | .OSIZE_B | .OSIZE_C | .IDENT_A | .IDENT_B | .IDENT_C | .MEMSIZE => x

/-- A host write of v to a register: at CMD it issues a command, unless one is pending, which is the model fault
HostProtocol (R25, R80, R237); elsewhere it writes a live read-write register or is ignored (R24). -/
def writeReg (r : Reg) (v : Word) (s : State) : Out :=
  if r = .CMD then
    if statusBUSY s.status then .fault .hostProtocol else .next (accept v s)
  else .next { s with regs := writeRegs r v s.regs }

/-- An aligned write at an offset; a write at an unmapped offset is ignored (R24). -/
def writeOffset (off : BitVec 8) (v : Word) (s : State) : Out :=
  match regAt off with
  | some r => writeReg r v s
  | none => .next s

end Sys2Proof.Machine
end

