-- ==== Sys2Proof/Machine/Operands.lean ====
section
/-! DEFINITION. The operands of a command (30_encoding.md R76): the snapshot registers, read as unsigned 32-bit values, and
the one assembly, of the 64-bit A seed (10_state.md R37). -/

namespace Sys2Proof.Machine

/-- Run a command's rule on the snapshot registers of the pending command (R82); `reg[NAME]` in a rule is a field of them
(R22). With nothing pending there is nothing to run (DESIGN CHOICE, log 11). -/
def withCommand (s : State) (rule : Regs → Out) : Out :=
  match s.pending with
  | some c => rule c.regs
  | none => .refused .noPendingCommand

/-- `seed = (A_SEED_HI << 32) | A_SEED_LO` (R37, R76). -/
def aSeedOf (r : Regs) : U64 := (r.aSeedHi.setWidth 64 <<< 32) ||| r.aSeedLo.setWidth 64

end Sys2Proof.Machine
end

