-- ==== Sys2Proof/Machine/Cipher.lean ====
section
/-! DEFINITION. The CTR-mode cipher wrapper (43_ctr_cipher.md): CTR (R163), ENC and ENC.G (R160 to R162, R164), DEC (R165). -/

namespace Sys2Proof.Machine

/-- `E(key32, block16)` of R16, for parameter `CIPHER`. -/
def encryptBlock (c : CipherChoice) (key block : Bytes) : Bytes :=
  match c with
  | .aes256 => aes256 key block
  | .other n => be128 (Config.otherCipher n key block)

/-- The keystream of R163: n blocks from counter value c0 on, counting modulo 2^128. -/
def keystream (c : CipherChoice) (key : Bytes) : Nat → U128 → Bytes
  | 0, _ => []
  | n + 1, c0 => encryptBlock c key (be128 c0) ++ keystream c key n (c0 + 1)

/-- `CTR(key, iv, data)` of R163. -/
def ctrCrypt (c : CipherChoice) (key iv data : Bytes) : Bytes :=
  xorBytes data (keystream c key ((data.length + 15) / 16) (BitVec.ofNat 128 (fromBe iv)))

/-- The envelope `iv ‖ ct` of R164. -/
def envelope (c : CipherChoice) (key iv data : Bytes) : Bytes := iv ++ ctrCrypt c key iv data

/-- ENC from the IV draw on (R160, R162): the state it ends in, of success or of HASH_ERROR (R206). -/
def encFinish (r : Regs) (key data : Bytes) (s : State) : State :=
  let iv := entropyDraw ivLength s.entropy
  let drawn := { s with entropy := iv.2 }
  match iv.1 with
  | none => raiseError .hashError drawn
  | some v => complete (ivLength + data.length) (memWrite r.dst.toNat (envelope s.params.cipher key v data) drawn)

/-- ENC.G from the key draw on (R160 to R162): the key is drawn first, then the IV; on success the key is written at KEY and
then the envelope at DST, whose bytes win where the two overlap. A failed draw ends it with no later draw (R206). -/
def encGFinish (r : Regs) (data : Bytes) (s : State) : State :=
  let key := entropyDraw keyLength s.entropy
  match key.1 with
  | none => raiseError .hashError { s with entropy := key.2 }
  | some k =>
    let iv := entropyDraw ivLength key.2
    let drawn := { s with entropy := iv.2 }
    match iv.1 with
    | none => raiseError .hashError drawn
    | some v =>
      complete (ivLength + data.length)
        (memWrite r.dst.toNat (envelope s.params.cipher k v data) (memWrite r.key.toNat k drawn))

/-- ENC, G = 0 (R160). -/
def execEnc (s : State) : Out :=
  withCommand s fun r =>
    let n := r.srcLen.toNat
    if r.keyLen.toNat ≠ keyLength then .next (raiseError .keyError s)
    else if !inRange s r.src.toNat n then .next (raiseError .addressError s)
    else if !inRange s r.key.toNat keyLength then .next (raiseError .addressError s)
    else if !inRange s r.dst.toNat (ivLength + n) then .next (raiseError .addressError s)
    else memRead s r.src.toNat n fun data => memRead s r.key.toNat keyLength fun key =>
      .next (encFinish r key data s)

/-- ENC.G, G = 1 (R160, R161): KEY_LEN is not looked at; the key region is, as the key is written there. -/
def execEncG (s : State) : Out :=
  withCommand s fun r =>
    let n := r.srcLen.toNat
    if !inRange s r.src.toNat n then .next (raiseError .addressError s)
    else if !inRange s r.key.toNat keyLength then .next (raiseError .addressError s)
    else if !inRange s r.dst.toNat (ivLength + n) then .next (raiseError .addressError s)
    else memRead s r.src.toNat n fun data => .next (encGFinish r data s)

/-- DEC (R165). There is no integrity check (R166). -/
def execDec (s : State) : Out :=
  withCommand s fun r =>
    let n := r.srcLen.toNat
    let m := if n ≥ ivLength then n - ivLength else 0
    if r.keyLen.toNat ≠ keyLength then .next (raiseError .keyError s)
    else if !inRange s r.src.toNat n then .next (raiseError .addressError s)
    else if !inRange s r.key.toNat keyLength then .next (raiseError .addressError s)
    else if !inRange s r.dst.toNat m then .next (raiseError .addressError s)
    else if n < ivLength then .next (raiseError .cryptoError s)
    else memRead s r.src.toNat n fun env => memRead s r.key.toNat keyLength fun key =>
      .next (complete m
        (memWrite r.dst.toNat (ctrCrypt s.params.cipher key (env.take ivLength) (env.drop ivLength)) s))

end Sys2Proof.Machine
end

