-- ==== Sys2Proof/Machine/Prng.lean ====
section
/-! DEFINITION. The pseudo-random generator and the byte stream over it (00_scope.md R13 to R15). -/

namespace Sys2Proof.Machine

/-- A generator value (R13): SplitMix64's 64-bit state, or another generator's seed and count of draws. -/
inductive Gen where
  | splitMix64 (s : U64)
  | other (n : Nat) (seed : U64) (drawn : Nat)
deriving DecidableEq, Repr

/-- `PrngInit(seed64)` (R13, R15). -/
def prngInit (c : PrngChoice) (seed : U64) : Gen :=
  match c with
  | .splitMix64 => .splitMix64 seed
  | .other n => .other n seed 0

/-- The output of SplitMix64 from its advanced state (R15). -/
def splitMix64Output (z0 : U64) : U64 :=
  let z1 := (z0 ^^^ (z0 >>> 30)) * 0xBF58476D1CE4E5B9
  let z2 := (z1 ^^^ (z1 >>> 27)) * 0x94D049BB133111EB
  z2 ^^^ (z2 >>> 31)

/-- `Next64(g)` (R13, R15). -/
def next64 (g : Gen) : U64 × Gen :=
  match g with
  | .splitMix64 s => (splitMix64Output (s + 0x9E3779B97F4A7C15), .splitMix64 (s + 0x9E3779B97F4A7C15))
  | .other n seed k => (Config.otherPrng n seed k, .other n seed (k + 1))

/-- A byte stream over a generator (R14): the bytes of the last output not yet returned, and the generator. -/
structure Stream where
  rest : Bytes
  gen : Gen
deriving DecidableEq, Repr

/-- A fresh stream over a fresh generator (R13, R14). -/
def streamInit (c : PrngChoice) (seed : U64) : Stream := ⟨[], prngInit c seed⟩

/-- `NextByte` (R14): the bytes of successive outputs, least significant first, none skipped. -/
def nextByte (st : Stream) : Byte × Stream :=
  match st.rest with
  | b :: rest => (b, ⟨rest, st.gen⟩)
  | [] =>
    let p := next64 st.gen
    (p.1.extractLsb' 0 8, ⟨leBytes 7 (p.1.toNat / 256), p.2⟩)

/-- For each byte of a buffer in ascending order, draw the next stream byte r and replace the byte b by f b r: the shape of
the passes of R124, R143 and R146. -/
def mapWithStream (f : Byte → Byte → Byte) : Bytes → Stream → Bytes × Stream
  | [], st => ([], st)
  | b :: rest, st =>
    let d := nextByte st
    let more := mapWithStream f rest d.2
    (f b d.1 :: more.1, more.2)

end Sys2Proof.Machine
end

