-- ==== Sys2Proof/Machine/HashA.lean ====
section
/-! DEFINITION. Construction A (40_hash_a.md): the A function (R100 to R103), HASHA (R105) and RSTA (R107). -/

namespace Sys2Proof.Machine

/-- The chunk count `nc = (L + 7) / 8` of R100, and the block count of R102. -/
def chunkCount (n : Nat) : Nat := (n + 7) / aChunk

/-- The loop of R101 over the next nc chunks of data: each chunk value is the little-endian value of up to 8 bytes, a short
chunk zero-padded in its high bytes (R100). -/
def absorbChunks : Nat → Bytes → U64 → U64
  | 0, _, acc => acc
  | nc + 1, data, acc =>
    let v := BitVec.ofNat 64 (fromLe (data.take aChunk))
    absorbChunks nc (data.drop aChunk) (rotl (acc + v) aRotation ^^^ v)

/-- `Absorb(seed, data)` (R101). -/
def absorbA (seed : U64) (data : Bytes) : U64 := absorbChunks (chunkCount data.length) data seed

/-- One pass of the loop of R102 up to the append: the new accumulator, from the old one and the draw p. -/
def squeezeMix (acc p : U64) : U64 :=
  let m := acc * kA
  (m ^^^ (m >>> 32)) + p

/-- The loop of R102: n blocks of 8 bytes. -/
def squeezeBlocks : Nat → U64 → Gen → Bytes
  | 0, _, _ => []
  | n + 1, acc, g =>
    let d := next64 g
    let acc' := squeezeMix acc d.1
    le64 acc' ++ squeezeBlocks n acc' d.2

/-- `Squeeze(seed, acc, size)` (R102), over a fresh generator seeded from the seed alone. -/
def squeezeA (c : PrngChoice) (seed acc : U64) (size : Nat) : Bytes :=
  squeezeBlocks (chunkCount size) acc (prngInit c seed)

/-- `A(seed, size, data)` (R103), truncated to exactly size bytes. -/
def hashA (c : PrngChoice) (seed : U64) (size : Nat) (data : Bytes) : Bytes :=
  (squeezeA c seed (absorbA seed data) size).take size

/-- HASHA (R105). -/
def execHasha (s : State) : Out :=
  withCommand s fun r =>
    let size := r.aSize.toNat
    if !inRange s r.src.toNat r.srcLen.toNat then .next (raiseError .addressError s)
    else if !inRange s r.dst.toNat size then .next (raiseError .addressError s)
    else memRead s r.src.toNat r.srcLen.toNat fun data =>
      .next (complete size (memWrite r.dst.toNat (hashA s.params.prng (aSeedOf r) size data) s))

/-- RSTA (R107): `complete(0)`. -/
def execRsta (s : State) : Out :=
  withCommand s fun _ => .next (complete 0 s)

end Sys2Proof.Machine
end

