-- ==== Sys2Proof/Machine/HashB.lean ====
section
/-! DEFINITION. Construction B (41_hash_b.md): the B function (R120 to R125), HASHB (R126) and RSTB (R128). -/

namespace Sys2Proof.Machine

/-- The initial buffer of R120: `le_32(magic)` four times. -/
def initB (magic : Word) : Bytes := le32 magic ++ le32 magic ++ le32 magic ++ le32 magic

/-- One absorb step of R122 on one byte of the buffer: XOR, then rotate, then add. -/
def absorbByteB (b d r : Byte) : Byte := rotl (b ^^^ d) bByteRotation + r

/-- The loop of R122 from position i on. -/
def absorbB : Bytes → Nat → Bytes → Stream → Bytes × Stream
  | [], _, buf, st => (buf, st)
  | d :: rest, i, buf, st =>
    let x := nextByte st
    let j := i % bSize
    absorbB rest (i + 1) (buf.set j (absorbByteB (buf.getD j 0) d x.1)) x.2

/-- One word of R123: `rotl_32(w *_32 magic, 7) ^ magic`. -/
def wordB (magic w : Word) : Word := rotl (w * magic) bWordRotation ^^^ magic

/-- The word stage of R123 over the next k words of the buffer. -/
def wordsB (magic : Word) : Nat → Bytes → Bytes
  | 0, buf => buf
  | k + 1, buf => le32 (wordB magic (BitVec.ofNat 32 (fromLe (buf.take 4)))) ++ wordsB magic k (buf.drop 4)

/-- One byte of the final pass of R124: add, then rotate. -/
def finalByteB (b r : Byte) : Byte := rotl (b + r) bByteRotation

/-- `B(magic, data)` (R125), with one stream for both passes (R121). -/
def hashB (c : PrngChoice) (magic : Word) (data : Bytes) : Bytes :=
  let absorbed := absorbB data 0 (initB magic) (streamInit c (magic.setWidth 64))
  (mapWithStream finalByteB (wordsB magic 4 absorbed.1) absorbed.2).1

/-- HASHB (R126). -/
def execHashb (s : State) : Out :=
  withCommand s fun r =>
    if !inRange s r.src.toNat r.srcLen.toNat then .next (raiseError .addressError s)
    else if !inRange s r.dst.toNat bSize then .next (raiseError .addressError s)
    else memRead s r.src.toNat r.srcLen.toNat fun data =>
      .next (complete bSize (memWrite r.dst.toNat (hashB s.params.prng r.bMagic data) s))

/-- RSTB (R128): `complete(0)`. -/
def execRstb (s : State) : Out :=
  withCommand s fun _ => .next (complete 0 s)

end Sys2Proof.Machine
end

