-- ==== Sys2Proof/Machine/HashC.lean ====
section
/-! DEFINITION. Construction C (42_hash_c.md): the C function (R140 to R147), HASHC (R148) and RSTC (R150). -/

namespace Sys2Proof.Machine

/-- The loop of R140 from position i on. -/
def absorbC : Bytes → Nat → Bytes → Bytes
  | [], _, buf => buf
  | d :: rest, i, buf =>
    let j := i % cSize
    absorbC rest (i + 1) (buf.set j (buf.getD j 0 ^^^ d))

/-- `Fold(c)` of R141: the XOR of the four little-endian u64 words of C_SEED. -/
def foldSeed (c : Bytes) : U64 :=
  BitVec.ofNat 64 (fromLe (c.take 8)) ^^^ BitVec.ofNat 64 (fromLe ((c.drop 8).take 8)) ^^^
    BitVec.ofNat 64 (fromLe ((c.drop 16).take 8)) ^^^ BitVec.ofNat 64 (fromLe ((c.drop 24).take 8))

/-- One byte of the scramble pass of R143: add, then rotate. -/
def scrambleByte (b r : Byte) : Byte := rotl (b + r) cByteRotation

/-- The forward pass of R144, given the byte before: each step reads the value the step before it wrote. -/
def forwardFrom : Byte → Bytes → Bytes
  | _, [] => []
  | before, b :: rest => (b ^^^ before) :: forwardFrom (b ^^^ before) rest

/-- Forward diffusion (R144): the first byte stays. -/
def forwardDiffusion : Bytes → Bytes
  | [] => []
  | b :: rest => b :: forwardFrom b rest

/-- Backward diffusion (R145): the last byte stays, and each step, from the end, reads the value the step before it wrote. -/
def backwardDiffusion : Bytes → Bytes
  | [] => []
  | b :: rest =>
    match backwardDiffusion rest with
    | [] => [b]
    | after :: more => (b ^^^ after) :: after :: more

/-- One byte of the avalanche pass of R146. -/
def avalancheByte (b r : Byte) : Byte := (b * cMultiplier) ^^^ r

/-- One round (R142): scramble, forward, backward, avalanche. -/
def roundC (buf : Bytes) (st : Stream) : Bytes × Stream :=
  let scrambled := mapWithStream scrambleByte buf st
  mapWithStream avalancheByte (backwardDiffusion (forwardDiffusion scrambled.1)) scrambled.2

/-- The rounds of R142, one after another, on one stream. -/
def roundsC : Nat → Bytes → Stream → Bytes × Stream
  | 0, buf, st => (buf, st)
  | n + 1, buf, st => roundsC n (roundC buf st).1 (roundC buf st).2

/-- `C(rounds, data)` (R147), with the generator and C_SEED it depends on. -/
def hashC (c : PrngChoice) (cSeed : Bytes) (rounds : Nat) (data : Bytes) : Bytes :=
  (roundsC rounds (absorbC data 0 (List.replicate cSize 0)) (streamInit c (foldSeed cSeed))).1

/-- HASHC (R148). -/
def execHashc (s : State) : Out :=
  withCommand s fun r =>
    if !inRange s r.src.toNat r.srcLen.toNat then .next (raiseError .addressError s)
    else if !inRange s r.dst.toNat cSize then .next (raiseError .addressError s)
    else memRead s r.src.toNat r.srcLen.toNat fun data =>
      .next (complete cSize
        (memWrite r.dst.toNat (hashC s.params.prng s.params.cSeed.toList r.cRounds.toNat data) s))

/-- RSTC (R150): `complete(0)`; the zero buffer and the stream's seed are those every HASHC starts from anyway. -/
def execRstc (s : State) : Out :=
  withCommand s fun _ => .next (complete 0 s)

end Sys2Proof.Machine
end

