-- ==== Sys2Proof/Machine/Stretch.lean ====
section
/-! DEFINITION. Key stretching and derivation (44_key_stretch.md): the stretch function (R181), STRETCH (R180) and DERIVE
(R183). -/

namespace Sys2Proof.Machine

/-- `Stretch(seed, data, it, os)` of R181: the A function it times, each time over its own output. -/
def stretchA (c : PrngChoice) (seed : U64) (os : Nat) : Nat → Bytes → Bytes
  | 0, b => b
  | it + 1, b => stretchA c seed os it (hashA c seed os b)

/-- STRETCH (R180), with the snapshot's A seed (R182). -/
def execStretch (s : State) : Out :=
  withCommand s fun r =>
    let it := r.iter.toNat
    let os := r.osize.toNat
    if it = 0 ∨ os = 0 then .next (raiseError .invalidInput s)
    else if !inRange s r.src.toNat r.srcLen.toNat then .next (raiseError .addressError s)
    else if !inRange s r.dst.toNat os then .next (raiseError .addressError s)
    else memRead s r.src.toNat r.srcLen.toNat fun data =>
      .next (complete os (memWrite r.dst.toNat (stretchA s.params.prng (aSeedOf r) os it data) s))

/-- DERIVE (R183): the password at SRC, the salt at AUX, 10000 iterations, 32 bytes. -/
def execDerive (s : State) : Out :=
  withCommand s fun r =>
    if r.srcLen.toNat = 0 ∨ r.auxLen.toNat = 0 then .next (raiseError .invalidInput s)
    else if !inRange s r.src.toNat r.srcLen.toNat then .next (raiseError .addressError s)
    else if !inRange s r.aux.toNat r.auxLen.toNat then .next (raiseError .addressError s)
    else if !inRange s r.dst.toNat deriveSize then .next (raiseError .addressError s)
    else memRead s r.src.toNat r.srcLen.toNat fun pw => memRead s r.aux.toNat r.auxLen.toNat fun salt =>
      .next (complete deriveSize
        (memWrite r.dst.toNat (stretchA s.params.prng (aSeedOf r) deriveSize deriveIterations (pw ++ salt)) s))

end Sys2Proof.Machine
end

