-- ==== Sys2Proof/Machine/Dispatch.lean ====
section
/-! DEFINITION. One arm per command: the unit's execution of a decoded command (30_encoding.md R82, step 3). -/

namespace Sys2Proof.Machine

def exec (i : Instr) (s : State) : Host.Outcome State Fault Refusal :=
  match i with
  | .hasha => Sys2Proof.Machine.execHasha s
  | .hashb => Sys2Proof.Machine.execHashb s
  | .hashc => Sys2Proof.Machine.execHashc s
  | .rsta => Sys2Proof.Machine.execRsta s
  | .rstb => Sys2Proof.Machine.execRstb s
  | .rstc => Sys2Proof.Machine.execRstc s
  | .enc => Sys2Proof.Machine.execEnc s
  | .encG => Sys2Proof.Machine.execEncG s
  | .dec => Sys2Proof.Machine.execDec s
  | .stretch => Sys2Proof.Machine.execStretch s
  | .derive => Sys2Proof.Machine.execDerive s

end Sys2Proof.Machine
end

