-- ==== Sys2Proof/WellFormed.lean ====
section
/-! DEFINITION. Which terms of Syntax.lean and Config.lean the spec allows. A command has no operand, so every
`Instr` is well formed (30_encoding.md R76); what can be ill formed is a host access, a script or a parameter. -/

namespace Sys2Proof

/-- Every command of the table is well formed: it carries no immediate, register number or address (R76). -/
def Instr.wf (_ : Instr) : Bool := true

/-- The bounds of R7: 1 ≤ MEM_SIZE ≤ 2^31. (C_SEED's length is in its type.) -/
def Params.wf (p : Params) : Bool := decide (1 ≤ p.memSize) && decide (p.memSize ≤ 2 ^ 31)

/-- A register access is an aligned 32-bit word (R24). -/
def regAccessLegal (off : BitVec 8) (width : Nat) : Bool :=
  decide (width = 32) && decide (off.toNat % 4 = 0)

/-- A host access the spec gives a meaning whatever the block is doing: an aligned 32-bit register access (R24), a MEM
byte below MEM_SIZE (R51). Whether the block is BUSY is a matter of the state (R237), not of the access. -/
def HostOp.wf (p : Params) : HostOp → Bool
  | .writeReg off width _ => regAccessLegal off width
  | .readReg off width _ => regAccessLegal off width
  | .writeMem a _ => decide (a < p.memSize)
  | .readMem a _ => decide (a < p.memSize)
  | .clear _ => true
  | .bnz _ _ _ => true
  | .jump _ => true

/-- The labels a script defines (R77). -/
def scriptLabels : List Stmt → List Nat
  | [] => []
  | .label l :: rest => l :: scriptLabels rest
  | .wr _ _ :: rest | .rd _ _ :: rest | .wrm _ _ :: rest | .rdm _ _ _ :: rest | .cmd _ :: rest
  | .cmdWord _ :: rest | .bnz _ _ _ :: rest | .b _ :: rest | .poll _ :: rest | .run _ _ :: rest
  | .seta _ :: rest | .io _ _ _ :: rest | .key _ _ :: rest | .aux _ _ :: rest
  | .hasha _ _ _ _ :: rest | .hashb _ _ _ _ :: rest | .hashc _ _ _ _ :: rest => scriptLabels rest

/-- A statement branches only to labels among `labels`. -/
def Stmt.wf (labels : List Nat) : Stmt → Bool
  | .bnz _ _ l => labels.contains l
  | .b l => labels.contains l
  | .wr _ _ | .rd _ _ | .wrm _ _ | .rdm _ _ _ | .cmd _ | .cmdWord _ | .label _ | .poll _ | .run _ _
  | .seta _ | .io _ _ _ | .key _ _ | .aux _ _ | .hasha _ _ _ _ | .hashb _ _ _ _ | .hashc _ _ _ _ => true

/-- A script is well formed: each label is defined once, and each branch goes to a label it defines. -/
def scriptWf (p : List Stmt) : Bool :=
  decide (scriptLabels p).Nodup && p.all (Stmt.wf (scriptLabels p))

end Sys2Proof
end

