-- ==== Sys2Proof/Machine/Agents.lean ====
section
/-! DEFINITION. The turns of the agents (10_state.md R20): the unit's execution step (30_encoding.md R82), the host's
accesses (10_state.md R24, 20_memory.md R51, 70_reset_and_hazards.md R237) and its script moves (30_encoding.md R77), and the
platform's reset (70_reset_and_hazards.md R230). -/

namespace Sys2Proof.Machine

/-- The unit's turn (R82): decode the snapshot's word; raise ILLEGAL_COMMAND on an illegal one, else run the command's rule.
With no command pending the unit is idle (R218). -/
def unitTurn (s : State) : Out :=
  match s.pending with
  | none => .next s
  | some c =>
    match decode c.word with
    | .legal i => exec i s
    | .illegal _ => .next (raiseError .illegalCommand s)

/-- The value of a host variable, if some statement has assigned it. -/
def lookupVar (vars : List (Nat × HostVal)) (t : Nat) : Option HostVal :=
  match vars with
  | [] => none
  | x :: rest => if x.1 = t then some x.2 else lookupVar rest t

/-- Assign a host variable. -/
def assignVar (vars : List (Nat × HostVal)) (t : Nat) (v : HostVal) : List (Nat × HostVal) :=
  (t, v) :: vars.filter fun x => decide (x.1 ≠ t)

/-- A host variable as a number, for `t & mask`; bytes count least significant first (R53;
DESIGN CHOICE, log 6). -/
def varNumber (vars : List (Nat × HostVal)) (t : Nat) : Nat :=
  match lookupVar vars t with
  | some (.word w) => w.toNat
  | some (.bytes b) => fromLe b
  | none => Config.unassignedVariable t

/-- The bytes a host variable holds, for the next byte of an `rdm`. -/
def varBytes (vars : List (Nat × HostVal)) (t : Nat) : Bytes :=
  match lookupVar vars t with
  | some (.bytes b) => b
  | some (.word w) => le32 w
  | none => []

/-- The host's program goes to a position. -/
def hostGo (pos : Nat) (s : State) : State := { s with host := { s.host with pos := pos } }

/-- The host goes on to the next operation of its program. -/
def hostNext (s : State) : State := hostGo (s.host.pos + 1) s

/-- The host assigns a variable. -/
def hostAssign (t : Nat) (v : HostVal) (s : State) : State :=
  { s with host := { s.host with vars := assignVar s.host.vars t v } }

/-- The host may access MEM[a]: no command is pending (R237) and a < MEM_SIZE (R51). -/
def hostMemLegal (s : State) (a : Nat) : Bool := !statusBUSY s.status && decide (a < s.params.memSize)

/-- One operation of the host's program, its position already moved on. Whether a MEM access is legal is looked at before the byte
is, so a read of an unwritten byte while BUSY is HostProtocol alone; R207 does not say whether it records UnwrittenRead as well
(DESIGN CHOICE, log 13). -/
def hostOp (op : HostOp) (s : State) : Out :=
  match op with
  | .writeReg off width v =>
    if regAccessLegal off width then writeOffset off v s else .fault .hostProtocol
  | .readReg off width t =>
    if regAccessLegal off width then .next (hostAssign t (.word (readOffset s off)) s) else .fault .hostProtocol
  | .writeMem a b =>
    if hostMemLegal s a then .next (memWrite a [b] s) else .fault .hostProtocol
  | .readMem a t =>
    if hostMemLegal s a then
      memRead s a 1 fun b => .next (hostAssign t (.bytes (varBytes s.host.vars t ++ b)) s)
    else .fault .hostProtocol
  | .clear t => .next (hostAssign t (.bytes []) s)
  | .bnz t mask target =>
    if varNumber s.host.vars t &&& mask ≠ 0 then .next (hostGo target s) else .next s
  | .jump target => .next (hostGo target s)

/-- The host's turn: the next operation of its program; past the program's end the host does nothing more. -/
def hostTurn (s : State) : Out :=
  match s.host.prog[s.host.pos]? with
  | none => .next s
  | some op => hostOp op (hostNext s)

/-- Who takes the next step: the head of the schedule; once it is exhausted, the unit while a command is pending (R241: its
step eventually happens), else the host. -/
def nextAgent (s : State) : Agent :=
  match s.sched with
  | a :: _ => a
  | [] => if s.pending.isSome then .unit else .host

/-- An agent's turn. -/
def turn (a : Agent) (s : State) : Out :=
  match a with
  | .host => hostTurn s
  | .unit => unitTurn s
  | .reset => .next (hardReset s)

/-- The state with the next entry of the schedule used up. -/
def popSched (s : State) : State := { s with sched := s.sched.tail }

end Sys2Proof.Machine
end

