-- ==== Sys2Proof/Machine/Step.lean ====
section
/-! DEFINITION. One step of the machine: one turn of one agent (10_state.md R20, 20_memory.md R60). -/

namespace Sys2Proof.Machine

/-- The agent whose turn it is takes it. -/
def step (s : State) : Host.Outcome State Fault Refusal := turn (nextAgent s) (popSched s)

/-- The block fetches no instruction (R21, R63): a command comes to run when the host writes its word to CMD (R80). So this is
the state just after the acceptance of the word w, with the unit to move next (DESIGN CHOICE, log 3). Every command is one 32-bit word (R75). -/
def State.withFetchWord (s : State) (nbits w : Nat) : State :=
  accept (BitVec.ofNat 32 (w % 2 ^ nbits)) { s with sched := .unit :: s.sched }

end Sys2Proof.Machine
end

