-- ==== Sys2Proof/Machine/Script.lean ====
section
/-! DEFINITION. The host command-script language (30_encoding.md R77, R78): what each statement and pseudo-instruction
expands to, as the host accesses of 95_test_vectors.md section 8 (DESIGN CHOICE, log 8). -/

namespace Sys2Proof.Machine

/-- `wr REG, v`: one aligned 32-bit register write. -/
def opWr (r : Reg) (v : Word) : HostOp := .writeReg (regOffset r) 32 v

/-- `rd REG -> t`: one aligned 32-bit register read. -/
def opRd (r : Reg) (t : Nat) : HostOp := .readReg (regOffset r) 32 t

/-- `wrm a, b`: byte writes at ascending addresses (R51). -/
def opsWrm : Nat → Bytes → List HostOp
  | _, [] => []
  | a, b :: rest => .writeMem a b :: opsWrm (a + 1) rest

/-- The byte reads of `rdm a, n -> t`, at ascending addresses (R51). -/
def opsRdm (t : Nat) : Nat → Nat → List HostOp
  | _, 0 => []
  | a, n + 1 => .readMem a t :: opsRdm t (a + 1) n

/-- `io s, n, d` (R78). -/
def opsIo (s n d : Word) : List HostOp := [opWr .SRC s, opWr .SRC_LEN n, opWr .DST d]

/-- `poll -> t` at position `at0` (R78): the fresh label is that position. -/
def opsPoll (at0 t : Nat) : List HostOp := [opRd .STATUS t, .bnz t 0x1 at0]

/-- `run M -> t` at position `at0` (R78): `cmd M`, then `poll -> t`. -/
def opsRun (at0 : Nat) (i : Instr) (t : Nat) : List HostOp := opWr .CMD (encode i) :: opsPoll (at0 + 1) t

/-- The number of host operations a statement expands to. -/
def stmtSize : Stmt → Nat
  | .wr _ _ => 1
  | .rd _ _ => 1
  | .wrm _ b => b.length
  | .rdm _ n _ => n + 1
  | .cmd _ => 1
  | .cmdWord _ => 1
  | .bnz _ _ _ => 1
  | .b _ => 1
  | .label _ => 0
  | .poll _ => 2
  | .run _ _ => 3
  | .seta _ => 2
  | .io _ _ _ => 3
  | .key _ _ => 2
  | .aux _ _ => 2
  | .hasha _ _ _ _ => 6
  | .hashb _ _ _ _ => 6
  | .hashc _ _ _ _ => 6

/-- The position of a label in a script whose first statement stands at position `at0`. -/
def labelPos (l : Nat) : Nat → List Stmt → Option Nat
  | _, [] => none
  | at0, s :: rest => if s = .label l then some at0 else labelPos l (at0 + stmtSize s) rest

/-- The host operations of one statement at position `at0` of a script (R77, R78); none where it branches to a label the
script does not define. -/
def expandStmt (script : List Stmt) (at0 : Nat) : Stmt → Option (List HostOp)
  | .wr r v => some [opWr r v]
  | .rd r t => some [opRd r t]
  | .wrm a b => some (opsWrm a b)
  | .rdm a n t => some (.clear t :: opsRdm t a n)
  | .cmd i => some [opWr .CMD (encode i)]
  | .cmdWord w => some [opWr .CMD w]
  | .bnz t mask l => (labelPos l 0 script).map fun p => [.bnz t mask p]
  | .b l => (labelPos l 0 script).map fun p => [.jump p]
  | .label _ => some []
  | .poll t => some (opsPoll at0 t)
  | .run i t => some (opsRun at0 i t)
  | .seta v => some [opWr .A_SEED_LO (v.extractLsb' 0 32), opWr .A_SEED_HI (v.extractLsb' 32 32)]
  | .io s n d => some (opsIo s n d)
  | .key k n => some [opWr .KEY k, opWr .KEY_LEN n]
  | .aux a n => some [opWr .AUX a, opWr .AUX_LEN n]
  | .hasha d s n t => some (opsIo s n d ++ opsRun (at0 + 3) .hasha t)
  | .hashb d s n t => some (opsIo s n d ++ opsRun (at0 + 3) .hashb t)
  | .hashc d s n t => some (opsIo s n d ++ opsRun (at0 + 3) .hashc t)

/-- The host operations of the statements `rest` of a script, the first of them at position `at0`. -/
def assembleFrom (script : List Stmt) : Nat → List Stmt → Option (List HostOp)
  | _, [] => some []
  | at0, s :: rest =>
    match expandStmt script at0 s, assembleFrom script (at0 + stmtSize s) rest with
    | some a, some b => some (a ++ b)
    | _, _ => none

/-- The host program of a script. -/
def assemble (script : List Stmt) : Option (List HostOp) := assembleFrom script 0 script

/-- The state with a host program about to start. -/
def withHostProgram (prog : List HostOp) (s : State) : State := { s with host := ⟨prog, 0, []⟩ }

end Sys2Proof.Machine
end

