-- ==== Sys2Proof/Safety.lean ====
section
/-! DEFINITION. The terms claims about the machine are stated in: the invariant, what a step leaves alone, how a command
ends, and the n-th draw and byte of a generator. -/

namespace Sys2Proof.Machine

/-- STATUS says what is pending: BUSY alone while a command is pending, else one of the idle values of R26 (R49). -/
def statusCoherent (s : State) : Bool :=
  match s.pending with
  | some _ => s.status == statusBusy
  | none => statusIdleLegal s.status

/-- RES_LEN is 0 after reset and after an error (R30), and never more than MEM_SIZE, since a command's output fits MEM
(R55). -/
def resLenCoherent (s : State) : Bool :=
  decide (s.resLen.toNat ≤ s.params.memSize) &&
    (!(s.status == 0 || statusERR s.status) || s.resLen == 0)

/-- The invariant of the machine: the parameters keep the bounds of R7, MEM its canonical form below MEM_SIZE (R51),
and STATUS, RES_LEN and the pending command fit together (R26, R30, R49). -/
def State.Inv (s : State) : Bool :=
  s.params.wf && Memory.wf s.params.memSize s.mem && statusCoherent s && resLenCoherent s

/-- A run of k steps is safe when it ends in a state: no model fault (R207) and no refusal on the way. -/
def SafeRun (k : Nat) (s : State) : Prop := ∃ t, core.run k s = .next t

/-- What no command touches: the parameters, the live registers, the host and the schedule (R22, R201). -/
def sameAround (s t : State) : Prop :=
  t.params = s.params ∧ t.regs = s.regs ∧ t.host = s.host ∧ t.sched = s.sched

/-- Every byte of MEM reads in t as it did in s. -/
def memSame (s t : State) : Prop := ∀ x, readByte t.mem x = readByte s.mem x

/-- Every byte of MEM outside MEM[a..a+n) reads in t as it did in s. -/
def memSameOutside (s t : State) (a n : Nat) : Prop :=
  ∀ x, x < a ∨ a + n ≤ x → readByte t.mem x = readByte s.mem x

/-- MEM[a..a+b.length) holds the bytes b. -/
def memHolds (t : State) (a : Nat) (b : Bytes) : Prop := ∀ i, i < b.length → readByte t.mem (a + i) = b[i]?

/-- The command of s ended in t by `complete(n)` (R84): STATUS 0x2, RES_LEN n, nothing pending, nothing around it touched. -/
def EndsComplete (n : Nat) (s t : State) : Prop :=
  t.status = 0x2 ∧ t.resLen = BitVec.ofNat 32 n ∧ t.pending = none ∧ sameAround s t

/-- The command of s ended in t by `raise` with error code c (R201): STATUS `0x6 | (c << 8)`, RES_LEN 0, nothing pending,
no MEM byte and no other register changed. -/
def EndsInError (c : Nat) (s t : State) : Prop :=
  t.status = 0x6 ||| (BitVec.ofNat 32 c <<< 8) ∧ t.resLen = 0 ∧ t.pending = none ∧ memSame s t ∧ sameAround s t

/-- The errors each command can raise once its word is decoded (R203). -/
def errorsOf : Instr → List ErrorCode
  | .hasha | .hashb | .hashc => [.addressError]
  | .rsta | .rstb | .rstc => []
  | .enc => [.keyError, .addressError, .hashError]
  | .encG => [.addressError, .hashError]
  | .dec => [.keyError, .addressError, .cryptoError]
  | .stretch | .derive => [.invalidInput, .addressError]

/-- The number of bytes a command writes at DST when it succeeds (R30). -/
def resultLength (i : Instr) (r : Regs) : Nat :=
  match i with
  | .hasha => r.aSize.toNat
  | .hashb => 16
  | .hashc => 32
  | .rsta | .rstb | .rstc => 0
  | .enc | .encG => 16 + r.srcLen.toNat
  | .dec => r.srcLen.toNat - 16
  | .stretch => r.osize.toNat
  | .derive => 32

/-- MEM[x] is one of the bytes command i reads as its input (R56): the data at SRC, the key at KEY for ENC and DEC, the salt
at AUX for DERIVE. -/
def isInput (i : Instr) (r : Regs) (x : Nat) : Prop :=
  match i with
  | .rsta | .rstb | .rstc => False
  | .hasha | .hashb | .hashc | .stretch | .encG => r.src.toNat ≤ x ∧ x < r.src.toNat + r.srcLen.toNat
  | .enc | .dec =>
    (r.src.toNat ≤ x ∧ x < r.src.toNat + r.srcLen.toNat) ∨ (r.key.toNat ≤ x ∧ x < r.key.toNat + 32)
  | .derive =>
    (r.src.toNat ≤ x ∧ x < r.src.toNat + r.srcLen.toNat) ∨ (r.aux.toNat ≤ x ∧ x < r.aux.toNat + r.auxLen.toNat)

/-- The generator after n draws. -/
def genAfter : Nat → Gen → Gen
  | 0, g => g
  | n + 1, g => genAfter n (next64 g).2

/-- Draw k (from 0) of `PrngInit(seed)`. -/
def nthDraw (c : PrngChoice) (seed : U64) (k : Nat) : U64 := (next64 (genAfter k (prngInit c seed))).1

/-- The stream after n bytes. -/
def streamAfter : Nat → Stream → Stream
  | 0, st => st
  | n + 1, st => streamAfter n (nextByte st).2

/-- Byte k (from 0) of a stream. -/
def nthByte (st : Stream) (k : Nat) : Byte := (nextByte (streamAfter k st)).1

/-- The XOR of a list of bytes. -/
def xorAll (b : Bytes) : Byte := b.foldr (· ^^^ ·) 0

end Sys2Proof.Machine
end

