-- ==== Sys2Proof/Certificates/Slice0/Obligations.lean ====
section
/-! DEFINITION. The statements for the provers. Addresses and lengths are the snapshot registers as numbers; status words and
codes are written out as the spec's tables have them. -/

open Sys2Proof Sys2Proof.Machine

/-! ## Encoding -/

/-- The words of 30_encoding.md R77 decode to their commands, and the illegal words of 95_test_vectors.md section 7 to
none. -/
def Obligations.CommandWordsDecode : Prop :=
  decode 0x00000001 = .legal .hasha ∧ decode 0x00000002 = .legal .hashb ∧ decode 0x00000003 = .legal .hashc ∧
  decode 0x00000004 = .legal .rsta ∧ decode 0x00000005 = .legal .rstb ∧ decode 0x00000006 = .legal .rstc ∧
  decode 0x00000007 = .legal .enc ∧ decode 0x00000107 = .legal .encG ∧ decode 0x00000008 = .legal .dec ∧
  decode 0x00000009 = .legal .stretch ∧ decode 0x0000000A = .legal .derive ∧
  decode 0x00000000 = .illegal .opcodeZero ∧ decode 0x0000000B = .illegal .opcodeReserved ∧
  decode 0x000000FF = .illegal .opcodeReserved ∧ decode 0x00000101 = .illegal .generateFlag ∧
  decode 0x00000207 = .illegal .reservedBits ∧ decode 0x80000001 = .illegal .reservedBits

/-- Decoding and encoding agree both ways, on all 2^32 words: a word decodes to a command exactly when it is that command's
word (R70 to R73, R81). -/
def Obligations.DecodeAcceptsExactlyTheEncodings : Prop :=
  ∀ (w : Word) (i : Instr), decode w = .legal i ↔ w = encode i

/-- R74: a word is illegal exactly when OP is 0x00 or in 0x0B to 0xFF, or G = 1 with OP ≠ 0x07, or RSV ≠ 0; an illegal word
is still accepted, and its execution step raises ILLEGAL_COMMAND (code 6) with no other effect. -/
def Obligations.IllegalWordsRaiseIllegalCommand : Prop :=
  (∀ w : Word, (∃ why, decode w = .illegal why) ↔
    (w.toNat % 256 = 0x00 ∨ 0x0B ≤ w.toNat % 256 ∨ (w.toNat / 256 % 2 = 1 ∧ w.toNat % 256 ≠ 0x07) ∨ w.toNat / 512 ≠ 0)) ∧
  (∀ (w : Word) (s : State), statusBUSY s.status = false →
    ∃ t, hostOp (.writeReg 0x00 32 w) s = .next t ∧ t.pending = some ⟨w, s.regs⟩ ∧ t.status = 0x1) ∧
  (∀ (s : State) (c : Snapshot) (why : Illegal), s.pending = some c → decode c.word = .illegal why →
    ∃ t, unitTurn s = .next t ∧ EndsInError 6 s t ∧ t.mem = s.mem ∧ t.entropy = s.entropy)

/-! ## Acceptance and host accesses -/

/-- R80: a host write of w to CMD while STATUS.BUSY = 0 puts w and the read-write registers in the snapshot and sets STATUS to
0x1, and touches neither MEM nor RES_LEN nor anything else, whatever w is. -/
def Obligations.CommandWriteIsAccepted : Prop :=
  ∀ (s : State) (w : Word), statusBUSY s.status = false →
    ∃ t, hostOp (.writeReg 0x00 32 w) s = .next t ∧ t.pending = some ⟨w, s.regs⟩ ∧ t.status = 0x1 ∧
      t.mem = s.mem ∧ t.resLen = s.resLen ∧ t.entropy = s.entropy ∧ sameAround s t

/-- R237: while STATUS.BUSY = 1 the host may read any register and write the read-write registers, which changes the live
registers only; a CMD write and a MEM read or write are model fault HostProtocol. R237 gives a read of an unwritten byte that
name too; that the stop does not name UnwrittenRead beside it is the model's choice (DESIGN CHOICE, log 13). -/
def Obligations.AccessesWhileBusy : Prop :=
  ∀ s : State, statusBUSY s.status = true →
    (∀ (r : Reg) (v : Nat), ∃ t, hostOp (.readReg (regOffset r) 32 v) s = .next t ∧
      t.host.vars = assignVar s.host.vars v (.word (readReg s r)) ∧ { t with host := s.host } = s) ∧
    (∀ (r : Reg) (v : Word), regAccess r = .readWrite →
      ∃ t, hostOp (.writeReg (regOffset r) 32 v) s = .next t ∧ readReg t r = v ∧ t.pending = s.pending ∧
        { t with regs := s.regs } = s) ∧
    (∀ w : Word, hostOp (.writeReg 0x00 32 w) s = .fault .hostProtocol) ∧
    (∀ (a : Nat) (b : Byte), hostOp (.writeMem a b) s = .fault .hostProtocol) ∧
    (∀ a v : Nat, hostOp (.readMem a v) s = .fault .hostProtocol)

/-- R24: a misaligned access, or one of another width than 32, is model fault HostProtocol; an unmapped offset (0x60 to 0xFC)
reads 0 and ignores writes; a read-only register ignores writes; CMD reads 0; a read changes nothing of the block; a write
touches more than the live registers only at CMD. -/
def Obligations.RegisterAccessRules : Prop :=
  ∀ s : State,
    (∀ (off : BitVec 8) (width v : Nat) (x : Word), (off.toNat % 4 ≠ 0 ∨ width ≠ 32) →
      hostOp (.readReg off width v) s = .fault .hostProtocol ∧ hostOp (.writeReg off width x) s = .fault .hostProtocol) ∧
    (∀ (off : BitVec 8) (x : Word), off.toNat % 4 = 0 → 0x60 ≤ off.toNat →
      readOffset s off = 0 ∧ hostOp (.writeReg off 32 x) s = .next s) ∧
    (∀ (r : Reg) (x : Word), regAccess r = .readOnly → hostOp (.writeReg (regOffset r) 32 x) s = .next s) ∧
    readOffset s 0x00 = 0 ∧
    (∀ (off : BitVec 8) (v : Nat), off.toNat % 4 = 0 →
      ∃ t, hostOp (.readReg off 32 v) s = .next t ∧
        t.host.vars = assignVar s.host.vars v (.word (readOffset s off)) ∧ { t with host := s.host } = s) ∧
    (∀ (off : BitVec 8) (x : Word), off.toNat % 4 = 0 → off ≠ 0x00 →
      ∃ t, hostOp (.writeReg off 32 x) s = .next t ∧ { t with regs := s.regs } = s)

/-- The register map of 10_state.md section 2, offset by offset, as a read returns it; the live registers, not the
snapshot. -/
def Obligations.RegisterMapReads : Prop :=
  ∀ s : State,
    readOffset s 0x00 = 0 ∧ readOffset s 0x04 = s.status ∧ readOffset s 0x08 = s.regs.src ∧
    readOffset s 0x0C = s.regs.srcLen ∧ readOffset s 0x10 = s.regs.dst ∧ readOffset s 0x14 = s.resLen ∧
    readOffset s 0x18 = s.regs.key ∧ readOffset s 0x1C = s.regs.keyLen ∧ readOffset s 0x20 = s.regs.aux ∧
    readOffset s 0x24 = s.regs.auxLen ∧ readOffset s 0x28 = s.regs.iter ∧ readOffset s 0x2C = s.regs.osize ∧
    readOffset s 0x30 = s.regs.aSeedLo ∧ readOffset s 0x34 = s.regs.aSeedHi ∧ readOffset s 0x38 = s.regs.aSize ∧
    readOffset s 0x3C = s.regs.bMagic ∧ readOffset s 0x40 = s.regs.cRounds ∧ readOffset s 0x44 = s.regs.aSize ∧
    readOffset s 0x48 = 16 ∧ readOffset s 0x4C = 32 ∧ readOffset s 0x50 = 0x58494D53 ∧
    readOffset s 0x54 = 0x58494D4D ∧ readOffset s 0x58 = 0x4644524D ∧
    readOffset s 0x5C = BitVec.ofNat 32 s.params.memSize

/-- A write to a read-write register reads back, and no other register reads differently, but OSIZE_A after a write to A_SIZE,
whose live value it is (R41); nothing but the live registers changes. -/
def Obligations.RegisterWriteReadsBack : Prop :=
  ∀ (s : State) (r : Reg) (v : Word), regAccess r = .readWrite →
    ∃ t, hostOp (.writeReg (regOffset r) 32 v) s = .next t ∧ readOffset t (regOffset r) = v ∧
      (∀ r', r' ≠ r → ¬(r = .A_SIZE ∧ r' = .OSIZE_A) → readReg t r' = readReg s r') ∧
      (r = .A_SIZE → readReg t .OSIZE_A = v) ∧ { t with regs := s.regs } = s

/-- Host MEM accesses of 20_memory.md R51 and R52 while no command is pending: at a < MEM_SIZE a write makes the byte written and
changes no other, a read of a written byte returns it and changes nothing of the block, a read of an unwritten byte is model
fault UnwrittenRead; at a ≥ MEM_SIZE both are model fault HostProtocol. Two things are the model's, not the rules': that the
byte read is appended to what the variable holds, a word's four bytes with the rest (DESIGN CHOICE, log 6), and that a is any
natural number, so that the last clause speaks of addresses beyond 32 bits too (DEDUCED, log 9). -/
def Obligations.HostMemoryAccess : Prop :=
  ∀ (s : State) (a v : Nat) (b : Byte), statusBUSY s.status = false →
    (a < s.params.memSize →
      (∃ t, hostOp (.writeMem a b) s = .next t ∧ readByte t.mem a = some b ∧ memSameOutside s t a 1 ∧
        { t with mem := s.mem } = s) ∧
      (∀ x, readByte s.mem a = some x → ∃ t, hostOp (.readMem a v) s = .next t ∧
        t.host.vars = assignVar s.host.vars v (.bytes (varBytes s.host.vars v ++ [x])) ∧ { t with host := s.host } = s) ∧
      (readByte s.mem a = none → hostOp (.readMem a v) s = .fault .unwrittenRead)) ∧
    (s.params.memSize ≤ a →
      hostOp (.writeMem a b) s = .fault .hostProtocol ∧ hostOp (.readMem a v) s = .fault .hostProtocol)

/-- What scripts assemble to. Each plain statement of R77, anywhere in a script that assembles, stands for its host accesses, after
those of the statements before it and before those of the statements after it; a branch goes to the operation after its label;
each pseudo-instruction of R78 assembles to what its expansion does, the label of `poll` being any fresh one; and every well-formed
script assembles. That an `rdm` first clears its variable, and that a label is a position, are the model's choices (logs 6 and
8). -/
def Obligations.PseudoInstructionsExpand : Prop :=
  (∀ script, scriptWf script = true → ∃ p, assemble script = some p) ∧
  ∀ (before after : List Stmt) (t : Nat),
    let size := fun (q : List Stmt) => (q.map stmtSize).sum
    let assemblesTo := fun (st : Stmt) (ops : List HostOp) =>
      ∀ p, assemble (before ++ [st] ++ after) = some p →
        ∃ x y, p = x ++ ops ++ y ∧ x.length = size before ∧ y.length = size after
    (∀ r v, assemblesTo (Stmt.wr r v) [HostOp.writeReg (regOffset r) 32 v]) ∧
    (∀ r, assemblesTo (Stmt.rd r t) [HostOp.readReg (regOffset r) 32 t]) ∧
    (∀ a b, assemblesTo (Stmt.wrm a b) (b.zipIdx.map fun x => HostOp.writeMem (a + x.2) x.1)) ∧
    (∀ a n, assemblesTo (Stmt.rdm a n t)
      (HostOp.clear t :: (List.range n).map fun i => HostOp.readMem (a + i) t)) ∧
    (∀ i, assemblesTo (Stmt.cmd i) [HostOp.writeReg 0x00 32 (encode i)]) ∧
    (∀ w, assemblesTo (Stmt.cmdWord w) [HostOp.writeReg 0x00 32 w]) ∧
    (∀ l, assemblesTo (Stmt.label l) []) ∧
    (∀ m l pre post, before ++ [Stmt.bnz t m l] ++ after = pre ++ [Stmt.label l] ++ post → l ∉ scriptLabels pre →
      assemblesTo (Stmt.bnz t m l) [HostOp.bnz t m (size pre)]) ∧
    (∀ l pre post, before ++ [Stmt.b l] ++ after = pre ++ [Stmt.label l] ++ post → l ∉ scriptLabels pre →
      assemblesTo (Stmt.b l) [HostOp.jump (size pre)]) ∧
    (∀ l, l ∉ scriptLabels (before ++ after) → (∀ x m, Stmt.bnz x m l ∉ before ++ after) → Stmt.b l ∉ before ++ after →
      assemble (before ++ [Stmt.poll t] ++ after) =
        assemble (before ++ [Stmt.label l, Stmt.rd Reg.STATUS t, Stmt.bnz t 0x1 l] ++ after)) ∧
    (∀ i, assemble (before ++ [Stmt.run i t] ++ after) = assemble (before ++ [Stmt.cmd i, Stmt.poll t] ++ after)) ∧
    (∀ v : U64, assemble (before ++ [Stmt.seta v] ++ after) =
      assemble (before ++ [Stmt.wr Reg.A_SEED_LO (v.extractLsb' 0 32), Stmt.wr Reg.A_SEED_HI (v.extractLsb' 32 32)] ++ after)) ∧
    (∀ s n d, assemble (before ++ [Stmt.io s n d] ++ after) =
      assemble (before ++ [Stmt.wr Reg.SRC s, Stmt.wr Reg.SRC_LEN n, Stmt.wr Reg.DST d] ++ after)) ∧
    (∀ k n, assemble (before ++ [Stmt.key k n] ++ after) = assemble (before ++ [Stmt.wr Reg.KEY k, Stmt.wr Reg.KEY_LEN n] ++ after)) ∧
    (∀ a n, assemble (before ++ [Stmt.aux a n] ++ after) = assemble (before ++ [Stmt.wr Reg.AUX a, Stmt.wr Reg.AUX_LEN n] ++ after)) ∧
    (∀ d s n, assemble (before ++ [Stmt.hasha d s n t] ++ after) =
      assemble (before ++ [Stmt.io s n d, Stmt.run Instr.hasha t] ++ after)) ∧
    (∀ d s n, assemble (before ++ [Stmt.hashb d s n t] ++ after) =
      assemble (before ++ [Stmt.io s n d, Stmt.run Instr.hashb t] ++ after)) ∧
    (∀ d s n, assemble (before ++ [Stmt.hashc d s n t] ++ after) =
      assemble (before ++ [Stmt.io s n d, Stmt.run Instr.hashc t] ++ after))

/-- The poll loop of R78: the read makes t the STATUS read, and the branch leaves the loop exactly when that STATUS has BUSY = 0, with
t holding it. -/
def Obligations.PollEndsWithFinalStatus : Prop :=
  ∀ (s : State) (at0 t : Nat), ∃ u v : State,
    hostOp (.readReg (regOffset .STATUS) 32 t) s = .next u ∧ hostOp (.bnz t 0x1 at0) u = .next v ∧
    lookupVar v.host.vars t = some (.word s.status) ∧ v.status = s.status ∧
    v.host.pos = if statusBUSY s.status then at0 else s.host.pos

/-! ## Reset -/

/-- R231: the reset value of every piece of state, in the block of any parameters, and the first CMD write after it is
accepted. -/
def Obligations.ResetValues : Prop :=
  ∀ s : State, ∃ t, turn .reset s = .next t ∧ t.params = s.params ∧ t.status = 0 ∧ t.resLen = 0 ∧ t.pending = none ∧
    t.regs.src = 0 ∧ t.regs.srcLen = 0 ∧ t.regs.dst = 0 ∧ t.regs.key = 0 ∧ t.regs.keyLen = 0 ∧ t.regs.aux = 0 ∧
    t.regs.auxLen = 0 ∧ t.regs.iter = 0 ∧ t.regs.osize = 0 ∧
    t.regs.aSeedLo = s.params.aDefaultSeed.extractLsb' 0 32 ∧ t.regs.aSeedHi = s.params.aDefaultSeed.extractLsb' 32 32 ∧
    t.regs.aSize = 32 ∧
    t.regs.bMagic = s.params.bDefaultMagic ∧ t.regs.cRounds = 8 ∧
    readReg t .CMD = 0 ∧ readReg t .OSIZE_A = 32 ∧ readReg t .OSIZE_B = 16 ∧ readReg t .OSIZE_C = 32 ∧
    readReg t .IDENT_A = 0x58494D53 ∧ readReg t .IDENT_B = 0x58494D4D ∧ readReg t .IDENT_C = 0x4644524D ∧
    readReg t .MEMSIZE = BitVec.ofNat 32 s.params.memSize ∧ t.params.cSeed = s.params.cSeed ∧
    (∀ x, readByte t.mem x = none) ∧
    (∀ w : Word, ∃ u, hostOp (.writeReg 0x00 32 w) t = .next u ∧ u.pending = some ⟨w, t.regs⟩)

/-- R232, R233: reset discards a pending command and makes every MEM byte unwritten; until a byte is written, a host read of it
is model fault UnwrittenRead, and so is a HASHC of one byte there. -/
def Obligations.ResetLeavesMemUnwritten : Prop :=
  ∀ s : State, ∃ t, turn .reset s = .next t ∧ t.pending = none ∧ t.status = 0 ∧ (∀ x, readByte t.mem x = none) ∧
    (∀ a v, a < s.params.memSize → hostOp (.readMem a v) t = .fault .unwrittenRead) ∧
    (∀ c : Snapshot, c.regs.src.toNat < s.params.memSize → c.regs.srcLen = 1 →
      c.regs.dst.toNat + 32 ≤ s.params.memSize →
      exec .hashc { t with pending := some c, status := 0x1 } = .fault .unwrittenRead)

/-! ## The step -/

/-- R82: when it is the unit's turn and a command is pending whose word decodes to i, step is exec of i, with the turn used up in
the schedule and nothing else added; where the word is illegal, step raises ILLEGAL_COMMAND (code 6), and nothing else of the state
with the turn used up changes. Once the schedule is exhausted it is the unit's turn, else its head moves (the schedule is the
model's, log 3). -/
def Obligations.StepRunsTheDecodedCommand : Prop :=
  ∀ (s : State) (c : Snapshot), s.pending = some c →
    (∀ i, nextAgent s = .unit → decode c.word = .legal i → step s = exec i { s with sched := s.sched.tail }) ∧
    (∀ why, nextAgent s = .unit → decode c.word = .illegal why →
      ∃ t, step s = .next t ∧ EndsInError 6 { s with sched := s.sched.tail } t ∧ t.mem = s.mem ∧ t.entropy = s.entropy) ∧
    (s.sched = [] → nextAgent s = .unit) ∧ (∀ a rest, s.sched = a :: rest → nextAgent s = a)

/-- In a host turn, step is the host operation at the host's position, with the position moved on and the turn used up; past the
program's end nothing else happens. -/
def Obligations.StepRunsTheHostProgram : Prop :=
  ∀ s : State, nextAgent s = .host →
    (∀ op, s.host.prog[s.host.pos]? = some op →
      step s = hostOp op { s with sched := s.sched.tail, host := { s.host with pos := s.host.pos + 1 } }) ∧
    (s.host.prog.length ≤ s.host.pos → step s = .next { s with sched := s.sched.tail })

/-- While a command is pending and no reset is scheduled (R241, in the form of the model's schedule, log 3): after at most as many
steps as the schedule is long, all of them host turns that leave the snapshot, MEM, the parameters and the entropy source as they
are, it is the unit's turn, whatever the command then does; or else the next host turn makes an access R237 or R24 forbids, which is
model fault HostProtocol (the one name where the byte read is unwritten too, DESIGN CHOICE, log 13). -/
def Obligations.PendingCommandGetsItsStep : Prop :=
  ∀ (s : State) (c : Snapshot), s.pending = some c → statusBUSY s.status = true → Agent.reset ∉ s.sched →
    ∃ k t, k ≤ s.sched.length ∧ core.run k s = .next t ∧
      (∀ j v, j < k → core.run j s = .next v → nextAgent v = .host) ∧
      t.pending = some c ∧ t.status = s.status ∧ t.params = s.params ∧ t.mem = s.mem ∧ t.entropy = s.entropy ∧
      (nextAgent t = .unit ∨ (k < s.sched.length ∧ nextAgent t = .host ∧ step t = .fault .hostProtocol))

/-- The invariant holds right after reset, whatever the parameters, and so of the reference block. -/
def Obligations.InvHoldsAfterReset : Prop :=
  (∀ p : Params, p.wf = true → (State.afterReset p).Inv = true) ∧ State.reset.Inv = true

/-- Every step keeps the invariant: the parameters within the bounds of R7, MEM in canonical form below MEM_SIZE (R51), STATUS one of the
values of R26 and BUSY exactly while a command is pending (R49), RES_LEN 0 after reset or an error (R30) and never above MEM_SIZE, as an
output fits MEM (R55). -/
def Obligations.StepKeepsInv : Prop :=
  ∀ s t : State, s.Inv = true → step s = .next t → t.Inv = true

/-! ## All commands -/

/-- R84, R201: `complete(n)` and `raise E`, for every code: STATUS, RES_LEN, the snapshot discarded; an error writes no MEM byte and
no other register. Both leave MEM and the entropy source as the rule's writes and draws left them. -/
def Obligations.CompleteAndRaiseEndTheCommand : Prop :=
  ∀ s : State,
    (∀ n : Nat, EndsComplete n s (complete n s) ∧ (complete n s).mem = s.mem ∧ (complete n s).entropy = s.entropy) ∧
    (∀ (e : ErrorCode) (c : Nat), (e, c) ∈ [(.invalidInput, 1), (.keyError, 2), (.encodingError, 3), (.cryptoError, 4),
        (.hashError, 5), (.illegalCommand, 6), (.addressError, 7)] →
      EndsInError c s (raiseError e s) ∧ (raiseError e s).mem = s.mem ∧ (raiseError e s).entropy = s.entropy ∧
      statusBUSY (raiseError e s).status = false ∧ statusDONE (raiseError e s).status = true ∧
      statusERR (raiseError e s).status = true ∧ (statusERRCODE (raiseError e s).status).toNat = c)

/-- What each agent's step can change. A host turn: live registers, MEM while nothing is pending, and STATUS only by
acceptance; never RES_LEN. A unit turn: nothing while idle, else it ends the command in success or in an error, never
touching the live registers. Reset gives the block the values of R231; that it leaves the entropy source and the host as they are is
the model's choice (DESIGN CHOICE, log 7), and so is it that each step uses up one entry of the schedule (log 3). No step changes a
parameter. -/
def Obligations.OnlyTheseStepsChangeTheBlock : Prop :=
  ∀ s t : State, step s = .next t →
    t.params = s.params ∧ t.sched = s.sched.tail ∧
    (nextAgent s = .host → t.resLen = s.resLen ∧ t.entropy = s.entropy ∧
      ((t.status = s.status ∧ t.pending = s.pending) ∨
        (statusBUSY s.status = false ∧ t.status = 0x1 ∧ t.mem = s.mem ∧ t.regs = s.regs ∧ ∃ w, t.pending = some ⟨w, s.regs⟩)) ∧
      (statusBUSY s.status = true → t.mem = s.mem)) ∧
    (nextAgent s = .unit → t.regs = s.regs ∧ t.host = s.host ∧
      (s.pending = none → t.status = s.status ∧ t.resLen = s.resLen ∧ t.pending = none ∧ t.mem = s.mem ∧ t.entropy = s.entropy) ∧
      (s.pending ≠ none → t.pending = none ∧
        (t.status = 0x2 ∨ (t.resLen = 0 ∧ t.mem = s.mem ∧ t.status ∈ [0x106, 0x206, 0x406, 0x506, 0x606, 0x706])))) ∧
    (nextAgent s = .reset → t.status = 0 ∧ t.resLen = 0 ∧ t.pending = none ∧ t.regs = Regs.afterReset s.params ∧
      (∀ x, readByte t.mem x = none) ∧ t.entropy = s.entropy ∧ t.host = s.host)

/-- Every command that ends answers by complete, with its result length, or by one of the errors R203 gives it; an error changes
no MEM byte. -/
def Obligations.CommandEndsInCompleteOrRaise : Prop :=
  ∀ (i : Instr) (s t : State), exec i s = .next t →
    ∃ c, s.pending = some c ∧
      (EndsComplete (resultLength i c.regs) s t ∨
        ∃ e ∈ errorsOf i, EndsInError (errorNumber e) s t ∧ t.mem = s.mem)

/-- The frame of every command: parameters, live registers, host and schedule stay; the entropy source is touched by ENC and ENC.G
alone; no MEM byte changes but the result at DST and, for ENC.G, the key at KEY. -/
def Obligations.CommandFrame : Prop :=
  ∀ (i : Instr) (s t : State) (c : Snapshot), s.pending = some c → exec i s = .next t →
    sameAround s t ∧ (i ≠ .enc → i ≠ .encG → t.entropy = s.entropy) ∧
    ∀ x, (x < c.regs.dst.toNat ∨ c.regs.dst.toNat + resultLength i c.regs ≤ x) →
      (i = .encG → x < c.regs.key.toNat ∨ c.regs.key.toNat + 32 ≤ x) → readByte t.mem x = readByte s.mem x

/-- R22: acceptance copies the command word and every read-write register into the snapshot; a later host write changes the
live registers only; and a command reads the snapshot, never the live registers: with others it ends the same, and leaves
those. -/
def Obligations.CommandsIgnoreLiveRegisters : Prop :=
  ∀ (i : Instr) (s : State) (live : Regs),
    (∀ w : Word, statusBUSY s.status = false →
      ∃ t, hostOp (.writeReg 0x00 32 w) s = .next t ∧ t.pending = some ⟨w, s.regs⟩) ∧
    (∀ (r : Reg) (v : Word), regAccess r = .readWrite →
      ∃ t, hostOp (.writeReg (regOffset r) 32 v) s = .next t ∧ readReg t r = v ∧ { t with regs := s.regs } = s) ∧
    (∀ t, exec i s = .next t → exec i { s with regs := live } = .next { t with regs := live }) ∧
    (∀ f, exec i s = .fault f → exec i { s with regs := live } = .fault f)

/-- A command's result depends on its snapshot, the MEM bytes it reads, the parameters and, for ENC and ENC.G, the entropy answers
(R65, R242, the spec's own inference), and on nothing an earlier command left elsewhere. -/
def Obligations.ResultsDependOnlyOnInputs : Prop :=
  ∀ (i : Instr) (s1 s2 t1 : State) (c : Snapshot), s1.pending = some c → s2.pending = some c → s1.params = s2.params →
    (i = .enc ∨ i = .encG → s1.entropy = s2.entropy) →
    (∀ x, isInput i c.regs x → readByte s1.mem x = readByte s2.mem x) →
    exec i s1 = .next t1 →
    ∃ t2, exec i s2 = .next t2 ∧ t2.status = t1.status ∧ t2.resLen = t1.resLen ∧
      (t1.status = 0x2 →
        (∀ x, c.regs.dst.toNat ≤ x → x < c.regs.dst.toNat + resultLength i c.regs →
          readByte t2.mem x = readByte t1.mem x) ∧
        (i = .encG → ∀ x, c.regs.key.toNat ≤ x → x < c.regs.key.toNat + 32 → readByte t2.mem x = readByte t1.mem x))

/-! ## The generator and its byte stream -/

/-- R15: SplitMix64, and its first three outputs from seed 0. -/
def Obligations.SplitMix64Draws : Prop :=
  (∀ seed : U64, prngInit .splitMix64 seed = .splitMix64 seed) ∧
  (∀ x : U64,
    let z0 := x + 0x9E3779B97F4A7C15
    let z1 := (z0 ^^^ (z0 >>> 30)) * 0xBF58476D1CE4E5B9
    let z2 := (z1 ^^^ (z1 >>> 27)) * 0x94D049BB133111EB
    next64 (.splitMix64 x) = (z2 ^^^ (z2 >>> 31), .splitMix64 z0)) ∧
  nthDraw .splitMix64 0 0 = 0xe220a8397b1dcdaf ∧ nthDraw .splitMix64 0 1 = 0x6e789e6aa1b965f4 ∧
  nthDraw .splitMix64 0 2 = 0x06c45d188009454f

/-- R14: byte 8k + j of a fresh stream is byte j, from the least significant, of draw k. -/
def Obligations.StreamBytesInOrder : Prop :=
  ∀ (c : PrngChoice) (seed : U64) (k j : Nat), j < 8 →
    nthByte (streamInit c seed) (8 * k + j) = (nthDraw c seed k).extractLsb' (8 * j) 8

/-! ## Construction A -/

/-- R100, R101: Absorb of no data is the seed; a first chunk of 8 bytes, or a last one of 1 to 7, whose byte j is bits 8j+7:8j of v
with the missing bytes 0, takes the accumulator to `rotl_64(acc + v, 13) ^ v`. -/
def Obligations.AbsorbByChunks : Prop :=
  ∀ (seed : U64),
    absorbA seed [] = seed ∧
    ∀ (chunk rest : Bytes), (chunk.length = 8 ∨ (0 < chunk.length ∧ chunk.length < 8 ∧ rest = [])) →
      ∃ v : U64, (∀ j, j < 8 → v.extractLsb' (8 * j) 8 = chunk.getD j 0) ∧
        absorbA seed (chunk ++ rest) = absorbA ((seed + v).rotateLeft 13 ^^^ v) rest

/-- R102: Squeeze runs ⌈size / 8⌉ passes from the accumulator acc; pass k multiplies by K_A, XORs the high half in, adds draw k of
`PrngInit(seed)`, and appends the accumulator's eight bytes, least significant first. -/
def Obligations.SqueezeByBlocks : Prop :=
  ∀ (c : PrngChoice) (seed acc : U64) (size : Nat),
    (squeezeA c seed acc size).length = 8 * ((size + 7) / 8) ∧
    ∃ accs : Nat → U64, accs 0 = acc ∧
      ∀ k, k < (size + 7) / 8 →
        (let m := accs k * 0x6c508bbb9c09c9df
         accs (k + 1) = (m ^^^ (m >>> 32)) + nthDraw c seed k) ∧
        ∀ j, j < 8 → (squeezeA c seed acc size)[8 * k + j]? = some ((accs (k + 1)).extractLsb' (8 * j) 8)

/-- R103: the A function is Squeeze of Absorb truncated to exactly size bytes, empty for size 0; so a shorter output is a prefix
of a longer one. -/
def Obligations.HashATruncatesToSize : Prop :=
  ∀ (c : PrngChoice) (seed : U64) (data : Bytes) (size : Nat),
    hashA c seed size data = (squeezeA c seed (absorbA seed data) size).take size ∧
    (hashA c seed size data).length = size ∧ hashA c seed 0 data = [] ∧
    ∀ longer, size ≤ longer → hashA c seed size data = (hashA c seed longer data).take size

/-- R181: Stretch iterates A, each time over the bytes before. -/
def Obligations.StretchIteratesA : Prop :=
  ∀ (c : PrngChoice) (seed : U64) (d : Bytes) (os : Nat),
    stretchA c seed os 0 d = d ∧ stretchA c seed os 1 d = hashA c seed os d ∧
    ∀ t, stretchA c seed os (t + 1) d = hashA c seed os (stretchA c seed os t d)

/-! ## Construction B -/

/-- R120: the initial buffer is 16 bytes, byte j the byte j mod 4 of magic. -/
def Obligations.BufferBStartsAsMagic : Prop :=
  ∀ (magic : Word), (initB magic).length = 16 ∧
    ∀ j, j < 16 → (initB magic)[j]? = some ((magic >>> (8 * (j % 4))).setWidth 8)

/-- R122: the last of L + 1 input bytes d goes into byte L mod 16: XOR, rotate left by 3, add the stream's byte L; no other byte
changes, and L + 1 stream bytes are drawn. -/
def Obligations.AbsorbBFoldsEachByte : Prop :=
  ∀ (data buf : Bytes) (d : Byte) (st : Stream), buf.length = 16 →
    let L := data.length
    let old := (absorbB data 0 buf st).1
    let new := (absorbB (data ++ [d]) 0 buf st).1
    (absorbB [] 0 buf st) = (buf, st) ∧ new.length = 16 ∧
    new[L % 16]? = (old[L % 16]?).map (fun x => (x ^^^ d).rotateLeft 3 + nthByte st L) ∧
    (∀ j, j ≠ L % 16 → new[j]? = old[j]?) ∧
    (absorbB (data ++ [d]) 0 buf st).2 = streamAfter (L + 1) st

/-- R123: word k of the buffer becomes `rotl_32(w *_32 magic, 7) ^ magic`, for k in 0..4; the stage draws no stream byte. -/
def Obligations.WordStageB : Prop :=
  ∀ (magic : Word) (buf : Bytes), buf.length = 16 →
    (wordsB magic 4 buf).length = 16 ∧
    ∀ k, k < 4 → ((wordsB magic 4 buf).drop (4 * k)).take 4 =
      le32 ((BitVec.ofNat 32 (fromLe ((buf.drop (4 * k)).take 4)) * magic).rotateLeft 7 ^^^ magic)

/-- R121, R124: absorb takes the first L bytes of the one stream seeded from magic, and the final pass continues it: byte j of the output is the word stage's byte j plus the
stream's byte L + j, rotated left by 3. -/
def Obligations.FinalPassB : Prop :=
  ∀ (c : PrngChoice) (magic : Word) (data : Bytes),
    let st := streamInit c (magic.setWidth 64)
    let words := wordsB magic 4 (absorbB data 0 (initB magic) st).1
    (absorbB data 0 (initB magic) st).2 = streamAfter data.length st ∧
    (hashB c magic data).length = 16 ∧
    ∀ j, j < 16 → (hashB c magic data)[j]? =
      words[j]?.map fun x => (x + nthByte st (data.length + j)).rotateLeft 3

/-- With magic 0 all input is erased: the output is the rotated stream bytes L to L + 15, whatever the data (the spec's own
corollary in R127). -/
def Obligations.ZeroMagicErasesInput : Prop :=
  ∀ (c : PrngChoice) (data : Bytes),
    hashB c 0 data = (List.range 16).map fun j => (nthByte (streamInit c 0) (data.length + j)).rotateLeft 3

/-! ## Construction C -/

/-- R140: the absorbed buffer is 32 bytes, byte j the XOR of data[i] over all i with i mod 32 = j. -/
def Obligations.AbsorbCFoldsByXor : Prop :=
  ∀ data : Bytes,
    (absorbC data 0 (List.replicate 32 0)).length = 32 ∧
    ∀ j, j < 32 → (absorbC data 0 (List.replicate 32 0))[j]? =
      some (xorAll (((List.range data.length).filter fun i => i % 32 = j).map fun i => data.getD i 0))

/-- R144: after the forward pass byte j is the XOR of the bytes 0 to j before it. -/
def Obligations.ForwardIsPrefixXor : Prop :=
  ∀ buf : Bytes, (forwardDiffusion buf).length = buf.length ∧
    ∀ j, j < buf.length → (forwardDiffusion buf)[j]? = some (xorAll (buf.take (j + 1)))

/-- R145: after the backward pass byte j is the XOR of the bytes j to the last before it. -/
def Obligations.BackwardIsSuffixXor : Prop :=
  ∀ buf : Bytes, (backwardDiffusion buf).length = buf.length ∧
    ∀ j, j < buf.length → (backwardDiffusion buf)[j]? = some (xorAll (buf.drop j))

/-- R142, R143, R146: R rounds draw exactly 64·R bytes; rounds run one after another on one stream; round r scrambles with stream bytes 64r to 64r + 31, diffuses
forward, then backward, and avalanches with bytes 64r + 32 to 64r + 63. -/
def Obligations.RoundsRunFourPassesInOrder : Prop :=
  ∀ (buf : Bytes) (st : Stream) (r : Nat), buf.length = 32 →
    (roundsC 0 buf st).1 = buf ∧ (roundsC r buf st).2 = streamAfter (64 * r) st ∧
    ∃ scrambled : Bytes, scrambled.length = 32 ∧
      (∀ j, j < 32 → scrambled[j]? =
        ((roundsC r buf st).1)[j]?.map fun x => (x + nthByte st (64 * r + j)).rotateLeft 3) ∧
      (roundsC (r + 1) buf st).1.length = 32 ∧
      ∀ j, j < 32 → ((roundsC (r + 1) buf st).1)[j]? =
        (backwardDiffusion (forwardDiffusion scrambled))[j]?.map fun x => (x * 0xB5) ^^^ nthByte st (64 * r + 32 + j)

/-- Each round is a bijection on the 32-byte state for fixed stream bytes (the spec's own inference in R147): two states that a
round takes to one are one. -/
def Obligations.RoundIsInjective : Prop :=
  ∀ (b1 b2 : Bytes) (st : Stream), b1.length = 32 → b2.length = 32 → (roundC b1 st).1 = (roundC b2 st).1 → b1 = b2

/-! ## The cipher -/

/-- R163: byte i of CTR is data byte i XOR byte i mod 16 of the encryption of the counter block i / 16, the IV as a 128-bit
big-endian number plus i / 16, modulo 2^128. -/
def Obligations.CtrCombinesCounterBlocks : Prop :=
  (∀ x : U128, (be128 x).length = 16 ∧ fromBe (be128 x) = x.toNat ∧ ∀ j, j < 16 → (be128 x)[j]? = some (x.extractLsb' (8 * (15 - j)) 8)) ∧
  ∀ (c : CipherChoice) (key iv data : Bytes), iv.length = 16 →
    (ctrCrypt c key iv data).length = data.length ∧
    ∀ i, i < data.length → ∃ x k : Byte, data[i]? = some x ∧
      (encryptBlock c key (be128 (BitVec.ofNat 128 (fromBe iv + i / 16))))[i % 16]? = some k ∧
      (ctrCrypt c key iv data)[i]? = some (x ^^^ k)

/-- An entropy draw (R206, R214) fails or returns exactly n bytes, and is one draw; a listed answer is what it gives (the model's
own lists, log 2). It holds for every value of the free answers. -/
def Obligations.EntropyDrawAnswers : Prop :=
  ∀ (n : Nat) (e : EntropySource),
    ((entropyDraw n e).1 = none ∨ ∃ b, (entropyDraw n e).1 = some b ∧ b.length = n) ∧
    (entropyDraw n e).2.drawn = e.drawn + 1 ∧ (entropyDraw n e).2.answers = e.answers.tail ∧
    (∀ rest, e.answers = .fails :: rest → (entropyDraw n e).1 = none) ∧
    (∀ b rest, e.answers = .returns b :: rest → b.length = n → (entropyDraw n e).1 = some b)

/-! ## The commands -/

/-- R105: HASHA. -/
def Obligations.HashaRule : Prop :=
  encode .hasha = 0x00000001 ∧
  (∀ (s : State) (c : Snapshot), s.pending = some c →
    let r := c.regs
    let out := fun data => hashA s.params.prng ((r.aSeedHi.setWidth 64 <<< 32) ||| r.aSeedLo.setWidth 64) r.aSize.toNat data
    let inside := r.src.toNat + r.srcLen.toNat ≤ s.params.memSize ∧ r.dst.toNat + r.aSize.toNat ≤ s.params.memSize
    (¬inside → ∃ t, exec .hasha s = .next t ∧ EndsInError 7 s t ∧ t.mem = s.mem ∧ t.entropy = s.entropy) ∧
    (inside → readBytes s.mem r.src.toNat r.srcLen.toNat = none → exec .hasha s = .fault .unwrittenRead) ∧
    (∀ data, inside → readBytes s.mem r.src.toNat r.srcLen.toNat = some data →
      ∃ t, exec .hasha s = .next t ∧ EndsComplete r.aSize.toNat s t ∧ t.entropy = s.entropy ∧
        (out data).length = r.aSize.toNat ∧ memHolds t r.dst.toNat (out data) ∧
        memSameOutside s t r.dst.toNat r.aSize.toNat)) ∧
  hashA .splitMix64 0 5 [0x61, 0x62, 0x63] = [0x74, 0x44, 0x15, 0xa1, 0xf3]

/-- R126: HASHB. The example is the three stream bytes of absorb, the absorbed buffer and the output. -/
def Obligations.HashbRule : Prop :=
  encode .hashb = 0x00000002 ∧
  (∀ (s : State) (c : Snapshot), s.pending = some c →
    let r := c.regs
    let out := fun data => hashB s.params.prng r.bMagic data
    let inside := r.src.toNat + r.srcLen.toNat ≤ s.params.memSize ∧ r.dst.toNat + 16 ≤ s.params.memSize
    (¬inside → ∃ t, exec .hashb s = .next t ∧ EndsInError 7 s t ∧ t.mem = s.mem ∧ t.entropy = s.entropy) ∧
    (inside → readBytes s.mem r.src.toNat r.srcLen.toNat = none → exec .hashb s = .fault .unwrittenRead) ∧
    (∀ data, inside → readBytes s.mem r.src.toNat r.srcLen.toNat = some data →
      ∃ t, exec .hashb s = .next t ∧ EndsComplete 16 s t ∧ t.entropy = s.entropy ∧
        (out data).length = 16 ∧ memHolds t r.dst.toNat (out data) ∧ memSameOutside s t r.dst.toNat 16)) ∧
  (List.range 3).map (nthByte (streamInit .splitMix64 0x12345678)) = [0x6f, 0x6b, 0x90] ∧
  (absorbB [0x61, 0x62, 0x63] 0 (initB 0x12345678) (streamInit .splitMix64 0x12345678)).1 =
    [0x37, 0x0c, 0x4a, 0x12, 0x78, 0x56, 0x34, 0x12, 0x78, 0x56, 0x34, 0x12, 0x78, 0x56, 0x34, 0x12] ∧
  hashB .splitMix64 0x12345678 [0x61, 0x62, 0x63] =
    [0x77, 0x5f, 0x48, 0xee, 0x75, 0x6c, 0x6f, 0x2e, 0x65, 0xc4, 0x63, 0x66, 0xaa, 0xac, 0x5a, 0x65]

/-- R148: HASHC, with the stream seeded from Fold(C_SEED) (R141). The example with C_ROUNDS 0 holds for every generator; of
the one with C_ROUNDS 8 the rule gives the first and the last four bytes. -/
def Obligations.HashcRule : Prop :=
  encode .hashc = 0x00000003 ∧
  (∀ (s : State) (c : Snapshot), s.pending = some c →
    let r := c.regs
    let word := fun k => BitVec.ofNat 64 (fromLe ((s.params.cSeed.toList.drop (8 * k)).take 8))
    let out := fun data => (roundsC r.cRounds.toNat (absorbC data 0 (List.replicate 32 0))
      (streamInit s.params.prng (word 0 ^^^ word 1 ^^^ word 2 ^^^ word 3))).1
    let inside := r.src.toNat + r.srcLen.toNat ≤ s.params.memSize ∧ r.dst.toNat + 32 ≤ s.params.memSize
    (¬inside → ∃ t, exec .hashc s = .next t ∧ EndsInError 7 s t ∧ t.mem = s.mem ∧ t.entropy = s.entropy) ∧
    (inside → readBytes s.mem r.src.toNat r.srcLen.toNat = none → exec .hashc s = .fault .unwrittenRead) ∧
    (∀ data, inside → readBytes s.mem r.src.toNat r.srcLen.toNat = some data →
      ∃ t, exec .hashc s = .next t ∧ EndsComplete 32 s t ∧ t.entropy = s.entropy ∧
        (out data).length = 32 ∧ memHolds t r.dst.toNat (out data) ∧ memSameOutside s t r.dst.toNat 32)) ∧
  (∀ c cSeed, hashC c cSeed 0 [0x61, 0x62, 0x63] = [0x61, 0x62, 0x63] ++ List.replicate 29 0) ∧
  (let out := hashC .splitMix64 Params.reference.cSeed.toList 8 []
   out.length = 32 ∧ out.take 4 = [0x86, 0xae, 0xa6, 0x2f] ∧ out.drop 28 = [0x9f, 0x72, 0xff, 0x48])

/-- R107, R128: RSTA and RSTB complete with length 0 on every snapshot, and change no register, no MEM byte and no draw; HASHA
after RSTA and HASHB after RSTB write the bytes they would have written before it. -/
def Obligations.RstaRstbOnlyComplete : Prop :=
  encode .rsta = 0x00000004 ∧ encode .rstb = 0x00000005 ∧
  ∀ (i hash : Instr) (s : State) (c : Snapshot), (i = .rsta ∧ hash = .hasha ∨ i = .rstb ∧ hash = .hashb) →
    s.pending = some c →
    ∃ t, exec i s = .next t ∧ EndsComplete 0 s t ∧ t.mem = s.mem ∧ t.entropy = s.entropy ∧
      ∀ (c2 : Snapshot) (u : State), exec hash { s with pending := some c2 } = .next u →
        ∃ v, exec hash { t with pending := some c2 } = .next v ∧ v.mem = u.mem ∧ v.status = u.status ∧ v.resLen = u.resLen

/-- RSTC (42_hash_c.md section 2; that it has no effect beyond completing is the spec's own inference): it completes with length 0
on every snapshot, and HASHC after it writes the bytes it would have written before it. -/
def Obligations.RstcOnlyCompletes : Prop :=
  encode .rstc = 0x00000006 ∧
  ∀ (s : State) (c : Snapshot), s.pending = some c →
    ∃ t, exec .rstc s = .next t ∧ EndsComplete 0 s t ∧ t.mem = s.mem ∧ t.entropy = s.entropy ∧
      ∀ (c2 : Snapshot) (u : State), exec .hashc { s with pending := some c2 } = .next u →
        ∃ v, exec .hashc { t with pending := some c2 } = .next v ∧ v.mem = u.mem ∧ v.status = u.status ∧ v.resLen = u.resLen

/-- R160, R164: ENC and ENC.G. The errors in their order; then the key from KEY or, for ENC.G, from the first draw, which is written
at KEY; then the IV from the next draw; the envelope `iv ‖ ct` at DST, whose bytes win where the two overlap. -/
def Obligations.EncRule : Prop :=
  encode .enc = 0x00000007 ∧ encode .encG = 0x00000107 ∧
  (∀ (s : State) (c : Snapshot), s.pending = some c →
    let r := c.regs
    let n := r.srcLen.toNat
    let env := fun key iv data => iv ++ ctrCrypt s.params.cipher key iv data
    let inside := r.src.toNat + n ≤ s.params.memSize ∧ r.key.toNat + 32 ≤ s.params.memSize ∧
      r.dst.toNat + 16 + n ≤ s.params.memSize
    -- ENC, G = 0
    (r.keyLen ≠ 32 → ∃ t, exec .enc s = .next t ∧ EndsInError 2 s t ∧ t.mem = s.mem ∧ t.entropy = s.entropy) ∧
    (r.keyLen = 32 → ¬inside →
      ∃ t, exec .enc s = .next t ∧ EndsInError 7 s t ∧ t.mem = s.mem ∧ t.entropy = s.entropy) ∧
    (r.keyLen = 32 → inside → (readBytes s.mem r.src.toNat n = none ∨ readBytes s.mem r.key.toNat 32 = none) →
      exec .enc s = .fault .unwrittenRead) ∧
    (∀ data key, r.keyLen = 32 → inside → readBytes s.mem r.src.toNat n = some data →
      readBytes s.mem r.key.toNat 32 = some key →
      (∀ e, entropyDraw 16 s.entropy = (none, e) →
        ∃ t, exec .enc s = .next t ∧ EndsInError 5 s t ∧ t.mem = s.mem ∧ t.entropy = e) ∧
      (∀ iv e, entropyDraw 16 s.entropy = (some iv, e) →
        ∃ t, exec .enc s = .next t ∧ EndsComplete (16 + n) s t ∧ t.entropy = e ∧ (env key iv data).length = 16 + n ∧
          memHolds t r.dst.toNat (env key iv data) ∧ memSameOutside s t r.dst.toNat (16 + n))) ∧
    -- ENC.G, G = 1: KEY_LEN is any value
    (¬inside → ∃ t, exec .encG s = .next t ∧ EndsInError 7 s t ∧ t.mem = s.mem ∧ t.entropy = s.entropy) ∧
    (inside → readBytes s.mem r.src.toNat n = none → exec .encG s = .fault .unwrittenRead) ∧
    (∀ data, inside → readBytes s.mem r.src.toNat n = some data →
      (∀ e, entropyDraw 32 s.entropy = (none, e) →
        ∃ t, exec .encG s = .next t ∧ EndsInError 5 s t ∧ t.mem = s.mem ∧ t.entropy = e) ∧
      (∀ key e1 e, entropyDraw 32 s.entropy = (some key, e1) → entropyDraw 16 e1 = (none, e) →
        ∃ t, exec .encG s = .next t ∧ EndsInError 5 s t ∧ t.mem = s.mem ∧ t.entropy = e) ∧
      (∀ key e1 iv e, entropyDraw 32 s.entropy = (some key, e1) → entropyDraw 16 e1 = (some iv, e) →
        ∃ t, exec .encG s = .next t ∧ EndsComplete (16 + n) s t ∧ t.entropy = e ∧ (env key iv data).length = 16 + n ∧
          memHolds t r.dst.toNat (env key iv data) ∧
          (∀ j, j < 32 → (r.key.toNat + j < r.dst.toNat ∨ r.dst.toNat + (16 + n) ≤ r.key.toNat + j) →
            readByte t.mem (r.key.toNat + j) = key[j]?) ∧
          (∀ x, (x < r.dst.toNat ∨ r.dst.toNat + (16 + n) ≤ x) → (x < r.key.toNat ∨ r.key.toNat + 32 ≤ x) →
            readByte t.mem x = readByte s.mem x)))) ∧
  ctrCrypt .aes256 ((List.range 32).map (BitVec.ofNat 8)) ((List.range 16).map (BitVec.ofNat 8)) [0x61, 0x62, 0x63] =
    [0x3b, 0x0c, 0x67]

/-- R165: DEC. -/
def Obligations.DecRule : Prop :=
  encode .dec = 0x00000008 ∧
  (∀ (s : State) (c : Snapshot), s.pending = some c →
    let r := c.regs
    let n := r.srcLen.toNat
    let out := fun key env => ctrCrypt s.params.cipher key (List.take 16 env) (List.drop 16 env)
    let inside := r.src.toNat + n ≤ s.params.memSize ∧ r.key.toNat + 32 ≤ s.params.memSize ∧
      r.dst.toNat + (n - 16) ≤ s.params.memSize
    (r.keyLen ≠ 32 → ∃ t, exec .dec s = .next t ∧ EndsInError 2 s t ∧ t.mem = s.mem ∧ t.entropy = s.entropy) ∧
    (r.keyLen = 32 → ¬inside →
      ∃ t, exec .dec s = .next t ∧ EndsInError 7 s t ∧ t.mem = s.mem ∧ t.entropy = s.entropy) ∧
    (r.keyLen = 32 → inside → n < 16 →
      ∃ t, exec .dec s = .next t ∧ EndsInError 4 s t ∧ t.mem = s.mem ∧ t.entropy = s.entropy) ∧
    (r.keyLen = 32 → inside → 16 ≤ n →
      (readBytes s.mem r.src.toNat n = none ∨ readBytes s.mem r.key.toNat 32 = none) →
      exec .dec s = .fault .unwrittenRead) ∧
    (∀ env key, r.keyLen = 32 → inside → 16 ≤ n → readBytes s.mem r.src.toNat n = some env →
      readBytes s.mem r.key.toNat 32 = some key →
      ∃ t, exec .dec s = .next t ∧ EndsComplete (n - 16) s t ∧ t.entropy = s.entropy ∧
        (out key env).length = n - 16 ∧ memHolds t r.dst.toNat (out key env) ∧
        memSameOutside s t r.dst.toNat (n - 16))) ∧
  ctrCrypt .aes256 ((List.range 32).map (BitVec.ofNat 8)) ((List.range 16).map (BitVec.ofNat 8)) [0x3b, 0x0c, 0x67] =
    [0x61, 0x62, 0x63]

/-- R180: STRETCH; INVALID_INPUT comes before ADDRESS_ERROR. -/
def Obligations.StretchRule : Prop :=
  encode .stretch = 0x00000009 ∧
  (∀ (s : State) (c : Snapshot), s.pending = some c →
    let r := c.regs
    let out := fun data => stretchA s.params.prng ((r.aSeedHi.setWidth 64 <<< 32) ||| r.aSeedLo.setWidth 64) r.osize.toNat r.iter.toNat data
    let inside := r.src.toNat + r.srcLen.toNat ≤ s.params.memSize ∧ r.dst.toNat + r.osize.toNat ≤ s.params.memSize
    (r.iter = 0 ∨ r.osize = 0 →
      ∃ t, exec .stretch s = .next t ∧ EndsInError 1 s t ∧ t.mem = s.mem ∧ t.entropy = s.entropy) ∧
    (r.iter ≠ 0 → r.osize ≠ 0 → ¬inside →
      ∃ t, exec .stretch s = .next t ∧ EndsInError 7 s t ∧ t.mem = s.mem ∧ t.entropy = s.entropy) ∧
    (r.iter ≠ 0 → r.osize ≠ 0 → inside → readBytes s.mem r.src.toNat r.srcLen.toNat = none →
      exec .stretch s = .fault .unwrittenRead) ∧
    (∀ data, r.iter ≠ 0 → r.osize ≠ 0 → inside → readBytes s.mem r.src.toNat r.srcLen.toNat = some data →
      ∃ t, exec .stretch s = .next t ∧ EndsComplete r.osize.toNat s t ∧ t.entropy = s.entropy ∧
        (out data).length = r.osize.toNat ∧ memHolds t r.dst.toNat (out data) ∧
        memSameOutside s t r.dst.toNat r.osize.toNat)) ∧
  stretchA .splitMix64 0 16 1 [0x61, 0x62, 0x63] =
    [0x74, 0x44, 0x15, 0xa1, 0xf3, 0x35, 0x67, 0xce, 0xdd, 0xb7, 0x61, 0x49, 0x50, 0x83, 0x6a, 0x2a]

/-- DERIVE (44_key_stretch.md section 2), without its worked example: INVALID_INPUT on an empty password or salt, then the
three regions, then 10000 iterations of A of size 32 over password and salt; ITER and OSIZE are any values. -/
def Obligations.DeriveRule : Prop :=
  encode .derive = 0x0000000A ∧
  ∀ (s : State) (c : Snapshot), s.pending = some c →
    let r := c.regs
    let out := fun pw salt => stretchA s.params.prng ((r.aSeedHi.setWidth 64 <<< 32) ||| r.aSeedLo.setWidth 64) 32 10000 (pw ++ salt)
    let inside := r.src.toNat + r.srcLen.toNat ≤ s.params.memSize ∧ r.aux.toNat + r.auxLen.toNat ≤ s.params.memSize ∧
      r.dst.toNat + 32 ≤ s.params.memSize
    (r.srcLen = 0 ∨ r.auxLen = 0 →
      ∃ t, exec .derive s = .next t ∧ EndsInError 1 s t ∧ t.mem = s.mem ∧ t.entropy = s.entropy) ∧
    (r.srcLen ≠ 0 → r.auxLen ≠ 0 → ¬inside →
      ∃ t, exec .derive s = .next t ∧ EndsInError 7 s t ∧ t.mem = s.mem ∧ t.entropy = s.entropy) ∧
    (r.srcLen ≠ 0 → r.auxLen ≠ 0 → inside →
      (readBytes s.mem r.src.toNat r.srcLen.toNat = none ∨ readBytes s.mem r.aux.toNat r.auxLen.toNat = none) →
      exec .derive s = .fault .unwrittenRead) ∧
    (∀ pw salt, r.srcLen ≠ 0 → r.auxLen ≠ 0 → inside → readBytes s.mem r.src.toNat r.srcLen.toNat = some pw →
      readBytes s.mem r.aux.toNat r.auxLen.toNat = some salt →
      ∃ t, exec .derive s = .next t ∧ EndsComplete 32 s t ∧ t.entropy = s.entropy ∧
        (out pw salt).length = 32 ∧ memHolds t r.dst.toNat (out pw salt) ∧ memSameOutside s t r.dst.toNat 32)

/-- The capability property of R85: RES_LEN after a HASHX that succeeded equals OSIZE_X, for A as long as A_SIZE was not
written since acceptance. -/
def Obligations.HashLengthIsOutputSize : Prop :=
  ∀ (s t : State) (c : Snapshot), s.pending = some c → t.status = 0x2 →
    (exec .hasha s = .next t → s.regs.aSize = c.regs.aSize → readReg t .RES_LEN = readReg t .OSIZE_A) ∧
    (exec .hashb s = .next t → readReg t .RES_LEN = readReg t .OSIZE_B) ∧
    (exec .hashc s = .next t → readReg t .RES_LEN = readReg t .OSIZE_C)

/-- Decryption gives back what was encrypted, under one key and cipher, from whatever place the envelope is read: the round trip the
spec infers in R167, for ENC with the key it read, and for ENC.G with the key it wrote where the envelope does not overlap
it. -/
def Obligations.DecryptsWhatWasEncrypted : Prop :=
  ∀ (i : Instr) (s t s2 : State) (c c2 : Snapshot) (data key : Bytes),
    s.pending = some c → exec i s = .next t → t.status = 0x2 →
    readBytes s.mem c.regs.src.toNat c.regs.srcLen.toNat = some data →
    (i = .enc ∧ readBytes s.mem c.regs.key.toNat 32 = some key ∨
      i = .encG ∧ readBytes t.mem c.regs.key.toNat 32 = some key ∧
        (c.regs.key.toNat + 32 ≤ c.regs.dst.toNat ∨
          c.regs.dst.toNat + (16 + c.regs.srcLen.toNat) ≤ c.regs.key.toNat)) →
    s2.params = s.params → s2.pending = some c2 → c2.regs.keyLen = 32 →
    c2.regs.srcLen.toNat = 16 + c.regs.srcLen.toNat →
    c2.regs.src.toNat + c2.regs.srcLen.toNat ≤ s.params.memSize →
    c2.regs.key.toNat + 32 ≤ s.params.memSize →
    c2.regs.dst.toNat + c.regs.srcLen.toNat ≤ s.params.memSize →
    readBytes s2.mem c2.regs.src.toNat c2.regs.srcLen.toNat =
      readBytes t.mem c.regs.dst.toNat (16 + c.regs.srcLen.toNat) →
    readBytes s2.mem c2.regs.key.toNat 32 = some key →
    ∃ u, exec .dec s2 = .next u ∧ EndsComplete c.regs.srcLen.toNat s2 u ∧ memHolds u c2.regs.dst.toNat data
end

