-- ==== Sys2Proof/Laws/Bytes.lean ====
section
/-! SUPPORT. Byte strings: lengths, and splitting a number into bytes and putting it together again. -/

namespace Sys2Proof.Machine

@[simp] theorem leBytes_length (n v : Nat) : (leBytes n v).length = n := by
  induction n generalizing v with
  | zero => rfl
  | succ n ih => simp [leBytes, ih]

@[simp] theorem le32_length (v : Word) : (le32 v).length = 4 := by simp [le32]
@[simp] theorem le64_length (v : U64) : (le64 v).length = 8 := by simp [le64]
@[simp] theorem be32_length (v : Word) : (be32 v).length = 4 := by simp [be32]
@[simp] theorem be128_length (v : U128) : (be128 v).length = 16 := by simp [be128]

@[simp] theorem xorBytes_length (a b : Bytes) : (xorBytes a b).length = min a.length b.length := by
  simp [xorBytes]

/-- Byte j of the n low bytes of v. -/
theorem leBytes_getElem? (n v j : Nat) (h : j < n) : (leBytes n v)[j]? = some (BitVec.ofNat 8 (v / 256 ^ j)) := by
  induction n generalizing v j with
  | zero => omega
  | succ n ih =>
    cases j with
    | zero => simp [leBytes]
    | succ j =>
      rw [leBytes, List.getElem?_cons_succ, ih (v / 256) j (by omega), Nat.div_div_eq_div_mul, pow_succ,
        Nat.mul_comm (256 ^ j)]

theorem fromLe_lt (b : Bytes) : fromLe b < 256 ^ b.length := by
  induction b with
  | nil => simp [fromLe]
  | cons d rest ih =>
    have := d.isLt
    simp only [fromLe, List.length_cons, pow_succ]
    omega

theorem fromLe_leBytes (n v : Nat) : fromLe (leBytes n v) = v % 256 ^ n := by
  induction n generalizing v with
  | zero => simp [leBytes, fromLe, Nat.mod_one]
  | succ n ih =>
    rw [leBytes, fromLe, ih, BitVec.toNat_ofNat, pow_succ' 256 n, Nat.mod_mul]

theorem leBytes_fromLe (b : Bytes) : leBytes b.length (fromLe b) = b := by
  induction b with
  | nil => rfl
  | cons d rest ih =>
    have hd : d.toNat < 256 := d.isLt
    simp only [List.length_cons, leBytes, fromLe]
    rw [show (d.toNat + 256 * fromLe rest) / 256 = fromLe rest by omega, ih]
    congr 1
    apply BitVec.eq_of_toNat_eq
    simp only [BitVec.toNat_ofNat]
    omega

theorem fromLe_append (a b : Bytes) : fromLe (a ++ b) = fromLe a + 256 ^ a.length * fromLe b := by
  induction a with
  | nil => simp [fromLe]
  | cons d rest ih => simp only [List.cons_append, fromLe, ih, List.length_cons, pow_succ]; ring

theorem rotl_eq_rotateLeft {n : Nat} (x : BitVec n) (r : Nat) (h : r < n) : rotl x r = x.rotateLeft r := by
  simp only [rotl, BitVec.rotateLeft, BitVec.rotateLeftAux, Nat.mod_eq_of_lt h]

end Sys2Proof.Machine
end

