-- ==== Sys2Proof/Laws/Data.lean ====
section
/-! SUPPORT. The data functions: how long their results are, and that truncating, streams and passes behave. -/

namespace Sys2Proof.Machine

/-! ## Streams and passes -/

@[simp] theorem mapWithStream_length (f : Byte → Byte → Byte) (b : Bytes) (st : Stream) :
    (mapWithStream f b st).1.length = b.length := by
  induction b generalizing st with
  | nil => rfl
  | cons d rest ih => simp [mapWithStream, ih]

theorem streamAfter_add (m n : Nat) (st : Stream) : streamAfter (m + n) st = streamAfter n (streamAfter m st) := by
  induction m generalizing st with
  | zero => simp [streamAfter]
  | succ m ih => rw [Nat.succ_add]; simpa [streamAfter] using ih _

/-- A pass takes the next bytes of the stream, one for each byte of the buffer. -/
theorem mapWithStream_stream (f : Byte → Byte → Byte) (b : Bytes) (st : Stream) :
    (mapWithStream f b st).2 = streamAfter b.length st := by
  induction b generalizing st with
  | nil => rfl
  | cons d rest ih => simp [mapWithStream, streamAfter, ih]

/-- Byte j after a pass is f of byte j before it and byte j of the stream. -/
theorem mapWithStream_getElem? (f : Byte → Byte → Byte) (b : Bytes) (st : Stream) (j : Nat) :
    (mapWithStream f b st).1[j]? = b[j]?.map fun x => f x (nthByte st j) := by
  induction b generalizing st j with
  | nil => simp [mapWithStream]
  | cons d rest ih =>
    cases j with
    | zero => simp [mapWithStream, nthByte, streamAfter]
    | succ j => simp [mapWithStream, ih, nthByte, streamAfter]

/-! ## Construction A -/

@[simp] theorem squeezeBlocks_length (n : Nat) (acc : U64) (g : Gen) : (squeezeBlocks n acc g).length = 8 * n := by
  induction n generalizing acc g with
  | zero => rfl
  | succ n ih => simp [squeezeBlocks, ih]; omega

@[simp] theorem hashA_length (c : PrngChoice) (seed : U64) (size : Nat) (data : Bytes) :
    (hashA c seed size data).length = size := by
  simp only [hashA, squeezeA, List.length_take, squeezeBlocks_length, chunkCount, aChunk]
  omega

@[simp] theorem stretchA_length (c : PrngChoice) (seed : U64) (os it : Nat) (b : Bytes) :
    (stretchA c seed os (it + 1) b).length = os := by
  induction it generalizing b with
  | zero => simp [stretchA]
  | succ it ih => rw [stretchA]; exact ih _

/-! ## Construction B -/

@[simp] theorem initB_length (magic : Word) : (initB magic).length = 16 := by simp [initB]

@[simp] theorem absorbB_length (data : Bytes) (i : Nat) (buf : Bytes) (st : Stream) :
    (absorbB data i buf st).1.length = buf.length := by
  induction data generalizing i buf st with
  | nil => rfl
  | cons d rest ih => simp [absorbB, ih]

theorem wordsB_length (magic : Word) (k : Nat) (buf : Bytes) (h : 4 * k ≤ buf.length) :
    (wordsB magic k buf).length = buf.length := by
  induction k generalizing buf with
  | zero => rfl
  | succ k ih =>
    have : (wordsB magic k (buf.drop 4)).length = (buf.drop 4).length := ih _ (by simp; omega)
    simp only [wordsB, List.length_append, le32_length, this, List.length_drop]; omega

@[simp] theorem hashB_length (c : PrngChoice) (magic : Word) (data : Bytes) : (hashB c magic data).length = 16 := by
  simp [hashB, wordsB_length]

/-! ## Construction C -/

@[simp] theorem absorbC_length (data : Bytes) (i : Nat) (buf : Bytes) : (absorbC data i buf).length = buf.length := by
  induction data generalizing i buf with
  | nil => rfl
  | cons d rest ih => simp [absorbC, ih]

@[simp] theorem forwardFrom_length (x : Byte) (b : Bytes) : (forwardFrom x b).length = b.length := by
  induction b generalizing x with
  | nil => rfl
  | cons d rest ih => simp [forwardFrom, ih]

@[simp] theorem forwardDiffusion_length (b : Bytes) : (forwardDiffusion b).length = b.length := by
  cases b <;> simp [forwardDiffusion]

/-- The backward pass, by its first byte: what follows, and the byte after it folded in. -/
theorem backwardDiffusion_cons (d : Byte) (rest : Bytes) :
    backwardDiffusion (d :: rest) = (d ^^^ (backwardDiffusion rest).headD 0) :: backwardDiffusion rest := by
  rw [backwardDiffusion]
  cases backwardDiffusion rest <;> simp

@[simp] theorem backwardDiffusion_length (b : Bytes) : (backwardDiffusion b).length = b.length := by
  induction b with
  | nil => rfl
  | cons d rest ih => simp [backwardDiffusion_cons, ih]

@[simp] theorem roundC_length (buf : Bytes) (st : Stream) : (roundC buf st).1.length = buf.length := by
  simp [roundC]

@[simp] theorem roundsC_length (n : Nat) (buf : Bytes) (st : Stream) : (roundsC n buf st).1.length = buf.length := by
  induction n generalizing buf st with
  | zero => rfl
  | succ n ih => simp [roundsC, ih]

@[simp] theorem hashC_length (c : PrngChoice) (cSeed : Bytes) (rounds : Nat) (data : Bytes) :
    (hashC c cSeed rounds data).length = 32 := by simp [hashC, cSize]

/-! ## The cipher -/

@[simp] theorem shiftRows_length (s : Bytes) : (shiftRows s).length = 16 := by simp [shiftRows]

@[simp] theorem mixColumns_length (s : Bytes) : (mixColumns s).length = s.length := by
  induction s using mixColumns.induct with
  | case1 a b c d rest ih => simp [mixColumns, ih]
  | case2 rest h => simp [mixColumns]

@[simp] theorem expandKey_length (n i : Nat) (ws : List Word) : (expandKey n i ws).length = ws.length + n := by
  induction n generalizing i ws with
  | zero => rfl
  | succ n ih => simp [expandKey, ih]; omega

@[simp] theorem beWords_length (n : Nat) (b : Bytes) : (beWords n b).length = n := by
  induction n generalizing b with
  | zero => rfl
  | succ n ih => simp [beWords, ih]

@[simp] theorem keySchedule_length (key : Bytes) : (keySchedule key).length = 240 := by
  simp [keySchedule]

theorem aesRounds_length (n : Nat) (ks s : Bytes) (hs : s.length = 16) (hk : 16 * n ≤ ks.length) :
    (aesRounds n ks s).length = 16 := by
  induction n generalizing ks s with
  | zero => exact hs
  | succ n ih =>
    cases n with
    | zero => simp [aesRounds]; omega
    | succ n => exact ih _ _ (by simp; omega) (by simp; omega)

theorem aes256_length (key block : Bytes) (h : block.length = 16) : (aes256 key block).length = 16 :=
  aesRounds_length 14 _ _ (by simp [h]) (by simp)

theorem encryptBlock_length (c : CipherChoice) (key block : Bytes) (h : block.length = 16) :
    (encryptBlock c key block).length = 16 := by
  cases c with
  | aes256 => exact aes256_length key block h
  | other n => simp [encryptBlock]

@[simp] theorem keystream_length (c : CipherChoice) (key : Bytes) (n : Nat) (c0 : U128) :
    (keystream c key n c0).length = 16 * n := by
  induction n generalizing c0 with
  | zero => rfl
  | succ n ih => simp [keystream, ih, encryptBlock_length]; omega

@[simp] theorem ctrCrypt_length (c : CipherChoice) (key iv data : Bytes) :
    (ctrCrypt c key iv data).length = data.length := by
  simp only [ctrCrypt, xorBytes_length, keystream_length]; omega

@[simp] theorem envelope_length (c : CipherChoice) (key iv data : Bytes) :
    (envelope c key iv data).length = iv.length + data.length := by simp [envelope]

/-! ## Entropy -/

@[simp] theorem drawnBytes_length (k n : Nat) (b : Bytes) : (drawnBytes k n b).length = n := by simp [drawnBytes]

/-- A listed answer of the right length is what the draw returns. -/
theorem drawnBytes_of_length (k : Nat) (b : Bytes) : drawnBytes k b.length b = b := by
  apply List.ext_getElem
  · simp
  · intro i _ h; simp [drawnBytes, List.getElem?_eq_getElem h]

/-- A draw that succeeds returns exactly the bytes asked for. -/
theorem entropyDraw_length {n : Nat} {e e' : EntropySource} {b : Bytes} (h : entropyDraw n e = (some b, e')) :
    b.length = n := by
  unfold entropyDraw at h
  split at h
  · simp only [Prod.mk.injEq, Option.some.injEq] at h; rw [← h.1]; simp
  · simp at h
  · simp only [Prod.mk.injEq] at h
    obtain ⟨h, -⟩ := h
    split at h
    · simp at h
    · simp only [Option.some.injEq] at h; rw [← h]; simp

end Sys2Proof.Machine
end

