-- ==== Sys2Proof/Laws/Memory.lean ====
section
/-! SUPPORT. MEM: reading after writing, and the canonical form that every write keeps. -/

namespace Sys2Proof.Machine

theorem readByte_append (m1 m2 : Memory) (x : Nat) :
    readByte (m1 ++ m2) x = (readByte m1 x).or (readByte m2 x) := by
  induction m1 with
  | nil => simp [readByte]
  | cons c rest ih => by_cases h : c.1 = x <;> simp [readByte, h, ih]

/-- Filtering by address keeps what the addresses that pass read as. -/
theorem readByte_filter (m : Memory) (p : Nat → Bool) (x : Nat) :
    readByte (m.filter fun c => p c.1) x = if p x then readByte m x else none := by
  induction m with
  | nil => simp [readByte]
  | cons c rest ih =>
    by_cases hp : p c.1 = true <;> by_cases hx : c.1 = x
    · subst hx; simp [readByte, hp]
    · simp [readByte, hp, hx, ih]
    · subst hx; simp [hp, ih]
    · simp [readByte, hp, hx, ih]

theorem readByte_cellsAt (a : Nat) (b : Bytes) (x : Nat) :
    readByte (cellsAt a b) x = if a ≤ x then b[x - a]? else none := by
  induction b generalizing a with
  | nil => simp [cellsAt, readByte]
  | cons d rest ih =>
    simp only [cellsAt, readByte, ih]
    rcases Nat.lt_trichotomy a x with h | h | h
    · have : x - a = (x - (a + 1)) + 1 := by omega
      simp [show ¬ a = x by omega, show a + 1 ≤ x by omega, show a ≤ x by omega, this]
    · subst h; simp
    · simp [show ¬ a = x by omega, show ¬ a + 1 ≤ x by omega, show ¬ a ≤ x by omega]

/-- What an address reads as after a write: the written byte inside the run, what it read as before outside it. -/
theorem readByte_writeBytes (m : Memory) (a : Nat) (b : Bytes) (x : Nat) :
    readByte (writeBytes m a b) x =
      if a ≤ x ∧ x < a + b.length then b[x - a]? else readByte m x := by
  simp only [writeBytes, readByte_append, readByte_cellsAt]
  rw [readByte_filter m (fun k => decide (k < a)), readByte_filter m (fun k => decide (a + b.length ≤ k))]
  by_cases h1 : x < a
  · simp [h1, show ¬ a ≤ x by omega, show ¬ a + b.length ≤ x by omega]
  · by_cases h2 : x < a + b.length
    · have hlt : x - a < b.length := by omega
      simp [h1, show a ≤ x by omega, h2, List.getElem?_eq_getElem hlt]
    · have hge : b.length ≤ x - a := by omega
      simp [h1, show a ≤ x by omega, h2, List.getElem?_eq_none hge, show a + b.length ≤ x by omega]

theorem readByte_writeBytes_inside (m : Memory) (a : Nat) (b : Bytes) (i : Nat) (h : i < b.length) :
    readByte (writeBytes m a b) (a + i) = b[i]? := by
  rw [readByte_writeBytes, if_pos (by omega)]; congr 1; omega

theorem readByte_writeBytes_outside (m : Memory) (a : Nat) (b : Bytes) (x : Nat) (h : x < a ∨ a + b.length ≤ x) :
    readByte (writeBytes m a b) x = readByte m x := by
  rw [readByte_writeBytes, if_neg (by omega)]

theorem readBytes_succ (m : Memory) (a n : Nat) :
    readBytes m a (n + 1) = (readByte m a).bind fun b => (readBytes m (a + 1) n).map fun rest => b :: rest := by
  rw [readBytes]
  cases readByte m a <;> cases readBytes m (a + 1) n <;> rfl

/-- A run of bytes reads as b exactly when it has b's length and each byte reads as b's. -/
theorem readBytes_eq_some (m : Memory) (a n : Nat) (b : Bytes) :
    readBytes m a n = some b ↔ b.length = n ∧ ∀ i, i < n → readByte m (a + i) = b[i]? := by
  induction n generalizing a b with
  | zero => cases b <;> simp [readBytes]
  | succ n ih =>
    rw [readBytes_succ]
    constructor
    · intro h
      obtain ⟨d, hd, h⟩ := Option.bind_eq_some_iff.mp h
      obtain ⟨rest, hr, rfl⟩ := Option.map_eq_some_iff.mp h
      obtain ⟨hl, hb⟩ := (ih (a + 1) rest).mp hr
      refine ⟨by simp [hl], fun i hi => ?_⟩
      cases i with
      | zero => simpa using hd
      | succ i => simpa [Nat.add_assoc, Nat.add_comm 1 i] using hb i (by omega)
    · rintro ⟨hl, hb⟩
      cases b with
      | nil => simp at hl
      | cons d rest =>
        have h0 : readByte m a = some d := by simpa using hb 0 (by omega)
        have hr : readBytes m (a + 1) n = some rest :=
          (ih (a + 1) rest).mpr ⟨by simpa using hl, fun i hi => by
            simpa [Nat.add_assoc, Nat.add_comm 1 i] using hb (i + 1) (by omega)⟩
        simp [h0, hr]

theorem readBytes_length {m : Memory} {a n : Nat} {b : Bytes} (h : readBytes m a n = some b) : b.length = n :=
  ((readBytes_eq_some m a n b).mp h).1

/-- A run reads as nothing exactly when some byte of it is unwritten. -/
theorem readBytes_eq_none (m : Memory) (a n : Nat) :
    readBytes m a n = none ↔ ∃ i, i < n ∧ readByte m (a + i) = none := by
  induction n generalizing a with
  | zero => simp [readBytes]
  | succ n ih =>
    rw [readBytes_succ]
    cases h0 : readByte m a with
    | none => simp only [Option.bind_none, true_iff]; exact ⟨0, by omega, by simpa using h0⟩
    | some d =>
      simp only [Option.bind_some, Option.map_eq_none_iff, ih]
      constructor
      · rintro ⟨i, hi, h⟩; exact ⟨i + 1, by omega, by rw [← h]; congr 1; omega⟩
      · rintro ⟨i, hi, h⟩
        cases i with
        | zero => simp [h0] at h
        | succ i => exact ⟨i, by omega, by rw [← h]; congr 1; omega⟩

/-- Reading a run depends only on what its bytes read as. -/
theorem readBytes_congr {m1 m2 : Memory} {a n : Nat} (h : ∀ i, i < n → readByte m1 (a + i) = readByte m2 (a + i)) :
    readBytes m1 a n = readBytes m2 a n := by
  induction n generalizing a with
  | zero => rfl
  | succ n ih =>
    rw [readBytes_succ, readBytes_succ, ih fun i hi => by
      simpa [Nat.add_assoc, Nat.add_comm 1 i] using h (i + 1) (by omega)]
    rw [show readByte m1 a = readByte m2 a by simpa using h 0 (by omega)]

/-- Reading back a run just written. -/
theorem readBytes_writeBytes_same (m : Memory) (a : Nat) (b : Bytes) :
    readBytes (writeBytes m a b) a b.length = some b :=
  (readBytes_eq_some _ _ _ _).mpr ⟨rfl, fun i hi => readByte_writeBytes_inside m a b i hi⟩

/-! ## The canonical form -/

theorem rising_iff_pairwise (m : Memory) :
    Memory.rising m = true ↔ m.Pairwise (fun c d => c.1 < d.1) := by
  induction m with
  | nil => simp [Memory.rising]
  | cons c rest ih =>
    cases rest with
    | nil => simp [Memory.rising]
    | cons d rest =>
      simp only [Memory.rising, Bool.and_eq_true, decide_eq_true_eq, ih]
      refine ⟨fun ⟨hcd, hp⟩ => List.pairwise_cons.mpr ⟨fun x hx => ?_, hp⟩,
        fun hp => ⟨(List.pairwise_cons.mp hp).1 d (by simp), (List.pairwise_cons.mp hp).2⟩⟩
      rcases List.mem_cons.mp hx with rfl | hx
      · exact hcd
      · exact Nat.lt_trans hcd ((List.pairwise_cons.mp hp).1 x hx)

theorem mem_cellsAt {a : Nat} {b : Bytes} {c : Host.Cell} (h : c ∈ cellsAt a b) : a ≤ c.1 ∧ c.1 < a + b.length := by
  induction b generalizing a with
  | nil => simp [cellsAt] at h
  | cons d rest ih =>
    rcases List.mem_cons.mp h with rfl | h
    · exact ⟨Nat.le_refl _, by simp⟩
    · have := ih h; simp only [List.length_cons]; omega

theorem cellsAt_pairwise (a : Nat) (b : Bytes) : (cellsAt a b).Pairwise (fun c d => c.1 < d.1) := by
  induction b generalizing a with
  | nil => simp [cellsAt]
  | cons d rest ih => exact List.pairwise_cons.mpr ⟨fun c hc => (mem_cellsAt hc).1, ih (a + 1)⟩

/-- A write below MEM_SIZE keeps the canonical form. -/
theorem writeBytes_wf {n : Nat} {m : Memory} {a : Nat} {b : Bytes} (hm : Memory.wf n m = true)
    (hn : a + b.length ≤ n) : Memory.wf n (writeBytes m a b) = true := by
  simp only [Memory.wf, Bool.and_eq_true, List.all_eq_true, decide_eq_true_eq, rising_iff_pairwise] at hm ⊢
  obtain ⟨hr, hb⟩ := hm
  refine ⟨?_, fun c hc => ?_⟩
  · simp only [writeBytes, List.append_assoc, List.pairwise_append]
    refine ⟨hr.filter _, ⟨cellsAt_pairwise a b, hr.filter _, fun c hc d hd => ?_⟩, fun c hc d hd => ?_⟩
    · have := (mem_cellsAt hc).2
      have := (List.mem_filter.mp hd).2
      simp only [decide_eq_true_eq] at this; omega
    · have h1 := (List.mem_filter.mp hc).2
      simp only [decide_eq_true_eq] at h1
      rcases List.mem_append.mp hd with hd | hd
      · have := (mem_cellsAt hd).1; omega
      · have := (List.mem_filter.mp hd).2
        simp only [decide_eq_true_eq] at this; omega
  · simp only [writeBytes, List.append_assoc, List.mem_append] at hc
    rcases hc with hc | hc | hc
    · exact hb c (List.mem_filter.mp hc).1
    · have := (mem_cellsAt hc).2; omega
    · exact hb c (List.mem_filter.mp hc).1

theorem reset_mem_wf (p : Params) : Memory.wf p.memSize (State.afterReset p).mem = true := rfl

end Sys2Proof.Machine
end

