-- ==== Sys2Proof/Laws/State.lean ====
section
/-! SUPPORT. One lemma per field and named operation over the state, true by unfolding the operation once. -/

namespace Sys2Proof.Machine

variable (s : State) (n a : Nat) (w : Word) (b : Bytes) (e : ErrorCode) (t pos : Nat) (v : HostVal)

@[simp] theorem complete_params : (complete n s).params = s.params := rfl
@[simp] theorem complete_regs : (complete n s).regs = s.regs := rfl
@[simp] theorem complete_status : (complete n s).status = statusDone := rfl
@[simp] theorem complete_resLen : (complete n s).resLen = BitVec.ofNat 32 n := rfl
@[simp] theorem complete_pending : (complete n s).pending = none := rfl
@[simp] theorem complete_mem : (complete n s).mem = s.mem := rfl
@[simp] theorem complete_entropy : (complete n s).entropy = s.entropy := rfl
@[simp] theorem complete_host : (complete n s).host = s.host := rfl
@[simp] theorem complete_sched : (complete n s).sched = s.sched := rfl

@[simp] theorem raiseError_params : (raiseError e s).params = s.params := rfl
@[simp] theorem raiseError_regs : (raiseError e s).regs = s.regs := rfl
@[simp] theorem raiseError_status : (raiseError e s).status = statusError e := rfl
@[simp] theorem raiseError_resLen : (raiseError e s).resLen = 0 := rfl
@[simp] theorem raiseError_pending : (raiseError e s).pending = none := rfl
@[simp] theorem raiseError_mem : (raiseError e s).mem = s.mem := rfl
@[simp] theorem raiseError_entropy : (raiseError e s).entropy = s.entropy := rfl
@[simp] theorem raiseError_host : (raiseError e s).host = s.host := rfl
@[simp] theorem raiseError_sched : (raiseError e s).sched = s.sched := rfl

@[simp] theorem accept_params : (accept w s).params = s.params := rfl
@[simp] theorem accept_regs : (accept w s).regs = s.regs := rfl
@[simp] theorem accept_status : (accept w s).status = statusBusy := rfl
@[simp] theorem accept_resLen : (accept w s).resLen = s.resLen := rfl
@[simp] theorem accept_pending : (accept w s).pending = some ⟨w, s.regs⟩ := rfl
@[simp] theorem accept_mem : (accept w s).mem = s.mem := rfl
@[simp] theorem accept_entropy : (accept w s).entropy = s.entropy := rfl
@[simp] theorem accept_host : (accept w s).host = s.host := rfl
@[simp] theorem accept_sched : (accept w s).sched = s.sched := rfl

@[simp] theorem memWrite_params : (memWrite a b s).params = s.params := rfl
@[simp] theorem memWrite_regs : (memWrite a b s).regs = s.regs := rfl
@[simp] theorem memWrite_status : (memWrite a b s).status = s.status := rfl
@[simp] theorem memWrite_resLen : (memWrite a b s).resLen = s.resLen := rfl
@[simp] theorem memWrite_pending : (memWrite a b s).pending = s.pending := rfl
@[simp] theorem memWrite_mem : (memWrite a b s).mem = writeBytes s.mem a b := rfl
@[simp] theorem memWrite_entropy : (memWrite a b s).entropy = s.entropy := rfl
@[simp] theorem memWrite_host : (memWrite a b s).host = s.host := rfl
@[simp] theorem memWrite_sched : (memWrite a b s).sched = s.sched := rfl

@[simp] theorem hardReset_params : (hardReset s).params = s.params := rfl
@[simp] theorem hardReset_regs : (hardReset s).regs = Regs.afterReset s.params := rfl
@[simp] theorem hardReset_status : (hardReset s).status = 0 := rfl
@[simp] theorem hardReset_resLen : (hardReset s).resLen = 0 := rfl
@[simp] theorem hardReset_pending : (hardReset s).pending = none := rfl
@[simp] theorem hardReset_mem : (hardReset s).mem = [] := rfl
@[simp] theorem hardReset_entropy : (hardReset s).entropy = s.entropy := rfl
@[simp] theorem hardReset_host : (hardReset s).host = s.host := rfl
@[simp] theorem hardReset_sched : (hardReset s).sched = s.sched := rfl

@[simp] theorem popSched_params : (popSched s).params = s.params := rfl
@[simp] theorem popSched_regs : (popSched s).regs = s.regs := rfl
@[simp] theorem popSched_status : (popSched s).status = s.status := rfl
@[simp] theorem popSched_resLen : (popSched s).resLen = s.resLen := rfl
@[simp] theorem popSched_pending : (popSched s).pending = s.pending := rfl
@[simp] theorem popSched_mem : (popSched s).mem = s.mem := rfl
@[simp] theorem popSched_entropy : (popSched s).entropy = s.entropy := rfl
@[simp] theorem popSched_host : (popSched s).host = s.host := rfl
@[simp] theorem popSched_sched : (popSched s).sched = s.sched.tail := rfl

@[simp] theorem hostGo_params : (hostGo pos s).params = s.params := rfl
@[simp] theorem hostGo_regs : (hostGo pos s).regs = s.regs := rfl
@[simp] theorem hostGo_status : (hostGo pos s).status = s.status := rfl
@[simp] theorem hostGo_resLen : (hostGo pos s).resLen = s.resLen := rfl
@[simp] theorem hostGo_pending : (hostGo pos s).pending = s.pending := rfl
@[simp] theorem hostGo_mem : (hostGo pos s).mem = s.mem := rfl
@[simp] theorem hostGo_entropy : (hostGo pos s).entropy = s.entropy := rfl
@[simp] theorem hostGo_host : (hostGo pos s).host = ⟨s.host.prog, pos, s.host.vars⟩ := rfl
@[simp] theorem hostGo_sched : (hostGo pos s).sched = s.sched := rfl

theorem hostNext_eq : hostNext s = hostGo (s.host.pos + 1) s := rfl

@[simp] theorem hostAssign_params : (hostAssign t v s).params = s.params := rfl
@[simp] theorem hostAssign_regs : (hostAssign t v s).regs = s.regs := rfl
@[simp] theorem hostAssign_status : (hostAssign t v s).status = s.status := rfl
@[simp] theorem hostAssign_resLen : (hostAssign t v s).resLen = s.resLen := rfl
@[simp] theorem hostAssign_pending : (hostAssign t v s).pending = s.pending := rfl
@[simp] theorem hostAssign_mem : (hostAssign t v s).mem = s.mem := rfl
@[simp] theorem hostAssign_entropy : (hostAssign t v s).entropy = s.entropy := rfl
@[simp] theorem hostAssign_host :
    (hostAssign t v s).host = ⟨s.host.prog, s.host.pos, assignVar s.host.vars t v⟩ := rfl
@[simp] theorem hostAssign_sched : (hostAssign t v s).sched = s.sched := rfl

end Sys2Proof.Machine
end

