-- ==== Sys2Proof/Laws/Exec.lean ====
section
/-! SUPPORT. What a command can do, said once: `exec_cases`, from one inversion lemma per command. -/

namespace Sys2Proof.Machine

/-- A command's rule runs on the snapshot, and only where there is one. -/
theorem withCommand_next {s t : State} {rule : Regs → Out} (h : withCommand s rule = .next t) :
    ∃ c, s.pending = some c ∧ rule c.regs = .next t := by
  unfold withCommand at h
  split at h
  · exact ⟨_, ‹_›, h⟩
  · cases h

theorem withCommand_some {s : State} {c : Snapshot} (hc : s.pending = some c) (rule : Regs → Out) :
    withCommand s rule = rule c.regs := by simp [withCommand, hc]

/-- A read that goes on found every byte written. -/
theorem memRead_next {s t : State} {a n : Nat} {go : Bytes → Out} (h : memRead s a n go = .next t) :
    ∃ b, readBytes s.mem a n = some b ∧ go b = .next t := by
  unfold memRead at h
  split at h
  · exact ⟨_, ‹_›, h⟩
  · cases h

theorem memRead_some {s : State} {a n : Nat} {b : Bytes} (h : readBytes s.mem a n = some b) (go : Bytes → Out) :
    memRead s a n go = go b := by simp [memRead, h]

theorem memRead_none {s : State} {a n : Nat} (h : readBytes s.mem a n = none) (go : Bytes → Out) :
    memRead s a n go = .fault .unwrittenRead := by simp [memRead, h]

@[simp] theorem inRange_eq_true (s : State) (a n : Nat) : inRange s a n = true ↔ a + n ≤ s.params.memSize := by
  simp [inRange]

@[simp] theorem inRange_eq_false (s : State) (a n : Nat) : inRange s a n = false ↔ s.params.memSize < a + n := by
  simp [inRange]

/-- The state t is s with an error raised by command i, and perhaps entropy drawn. -/
def RaisedBy (i : Instr) (s t : State) : Prop :=
  ∃ e ent, e ∈ errorsOf i ∧ (i ≠ .enc → i ≠ .encG → ent = s.entropy) ∧ t = raiseError e { s with entropy := ent }

/-- The state t is s with command i, of snapshot registers r, completed: MEM changed only at its output, which lies in MEM,
and perhaps entropy drawn. -/
def CompletedBy (i : Instr) (r : Regs) (s t : State) : Prop :=
  ∃ m ent, resultLength i r ≤ s.params.memSize ∧
    (Memory.wf s.params.memSize s.mem = true → Memory.wf s.params.memSize m = true) ∧
    (∀ x, (x < r.dst.toNat ∨ r.dst.toNat + resultLength i r ≤ x) →
      (i = .encG → x < r.key.toNat ∨ r.key.toNat + 32 ≤ x) → readByte m x = readByte s.mem x) ∧
    (i ≠ .enc → i ≠ .encG → ent = s.entropy) ∧
    t = complete (resultLength i r) { s with mem := m, entropy := ent }

theorem raisedBy_self {i : Instr} {s : State} {e : ErrorCode} (he : e ∈ errorsOf i) :
    RaisedBy i s (raiseError e s) := ⟨e, s.entropy, he, fun _ _ => rfl, rfl⟩

/-- A command that writes one output of the right length, in range, has completed as it should. -/
theorem completedBy_write {i : Instr} {r : Regs} {s : State} {out : Bytes} {ent : EntropySource}
    (hlen : out.length = resultLength i r) (hin : r.dst.toNat + resultLength i r ≤ s.params.memSize)
    (hent : i ≠ .enc → i ≠ .encG → ent = s.entropy) :
    CompletedBy i r s (complete (resultLength i r) (memWrite r.dst.toNat out { s with entropy := ent })) :=
  ⟨writeBytes s.mem r.dst.toNat out, ent, by omega, fun h => writeBytes_wf h (by omega),
    fun x hx _ => readByte_writeBytes_outside _ _ _ _ (by omega), hent, rfl⟩

/-- The reset commands write nothing. -/
theorem completedBy_nothing {i : Instr} {r : Regs} {s : State} (h : resultLength i r = 0) :
    CompletedBy i r s (complete 0 s) :=
  ⟨s.mem, s.entropy, by omega, id, fun _ _ _ => rfl, fun _ _ => rfl, by rw [h]⟩

theorem execHasha_cases {s t : State} (h : execHasha s = .next t) :
    ∃ c, s.pending = some c ∧ (RaisedBy .hasha s t ∨ CompletedBy .hasha c.regs s t) := by
  obtain ⟨c, hc, h⟩ := withCommand_next h
  refine ⟨c, hc, ?_⟩
  simp only at h
  split at h
  · cases h; exact .inl (raisedBy_self (by simp [errorsOf]))
  split at h
  · cases h; exact .inl (raisedBy_self (by simp [errorsOf]))
  rename_i hd
  obtain ⟨data, -, h⟩ := memRead_next h
  cases h
  exact .inr (completedBy_write (ent := s.entropy) (by simp [resultLength])
    (by simpa [resultLength] using hd) fun _ _ => rfl)

theorem execHashb_cases {s t : State} (h : execHashb s = .next t) :
    ∃ c, s.pending = some c ∧ (RaisedBy .hashb s t ∨ CompletedBy .hashb c.regs s t) := by
  obtain ⟨c, hc, h⟩ := withCommand_next h
  refine ⟨c, hc, ?_⟩
  split at h
  · cases h; exact .inl (raisedBy_self (by simp [errorsOf]))
  split at h
  · cases h; exact .inl (raisedBy_self (by simp [errorsOf]))
  rename_i hd
  obtain ⟨data, -, h⟩ := memRead_next h
  cases h
  exact .inr (completedBy_write (ent := s.entropy) (by simp [resultLength])
    (by simpa [resultLength, bSize] using hd) fun _ _ => rfl)

theorem execHashc_cases {s t : State} (h : execHashc s = .next t) :
    ∃ c, s.pending = some c ∧ (RaisedBy .hashc s t ∨ CompletedBy .hashc c.regs s t) := by
  obtain ⟨c, hc, h⟩ := withCommand_next h
  refine ⟨c, hc, ?_⟩
  split at h
  · cases h; exact .inl (raisedBy_self (by simp [errorsOf]))
  split at h
  · cases h; exact .inl (raisedBy_self (by simp [errorsOf]))
  rename_i hd
  obtain ⟨data, -, h⟩ := memRead_next h
  cases h
  exact .inr (completedBy_write (ent := s.entropy) (by simp [resultLength])
    (by simpa [resultLength, cSize] using hd) fun _ _ => rfl)

theorem execRsta_cases {s t : State} (h : execRsta s = .next t) :
    ∃ c, s.pending = some c ∧ CompletedBy .rsta c.regs s t := by
  obtain ⟨c, hc, h⟩ := withCommand_next h
  cases h; exact ⟨c, hc, completedBy_nothing rfl⟩

theorem execRstb_cases {s t : State} (h : execRstb s = .next t) :
    ∃ c, s.pending = some c ∧ CompletedBy .rstb c.regs s t := by
  obtain ⟨c, hc, h⟩ := withCommand_next h
  cases h; exact ⟨c, hc, completedBy_nothing rfl⟩

theorem execRstc_cases {s t : State} (h : execRstc s = .next t) :
    ∃ c, s.pending = some c ∧ CompletedBy .rstc c.regs s t := by
  obtain ⟨c, hc, h⟩ := withCommand_next h
  cases h; exact ⟨c, hc, completedBy_nothing rfl⟩

/-- ENC from the IV draw on: HASH_ERROR, or the envelope written. -/
theorem encFinish_cases (r : Regs) (key data : Bytes) (s : State) (hl : data.length = r.srcLen.toNat)
    (hd : r.dst.toNat + (16 + r.srcLen.toNat) ≤ s.params.memSize) :
    RaisedBy .enc s (encFinish r key data s) ∨ CompletedBy .enc r s (encFinish r key data s) := by
  unfold encFinish
  rcases hiv : entropyDraw ivLength s.entropy with ⟨_ | iv, e'⟩
  · exact .inl ⟨.hashError, e', by simp [errorsOf], fun h => absurd rfl h, rfl⟩
  · have hlen := entropyDraw_length hiv
    have := completedBy_write (i := .enc) (r := r) (s := s) (out := envelope s.params.cipher key iv data) (ent := e')
      (by simp [resultLength, hlen, hl, ivLength]) hd fun h => absurd rfl h
    right; simpa [resultLength, hl, ivLength] using this

/-- ENC.G from the key draw on: HASH_ERROR, or key and envelope written. -/
theorem encGFinish_cases (r : Regs) (data : Bytes) (s : State) (hl : data.length = r.srcLen.toNat)
    (hk : r.key.toNat + 32 ≤ s.params.memSize)
    (hd : r.dst.toNat + (16 + r.srcLen.toNat) ≤ s.params.memSize) :
    RaisedBy .encG s (encGFinish r data s) ∨ CompletedBy .encG r s (encGFinish r data s) := by
  unfold encGFinish
  rcases hkey : entropyDraw keyLength s.entropy with ⟨_ | key, e1⟩
  · exact .inl ⟨.hashError, e1, by simp [errorsOf], fun _ h => absurd rfl h, rfl⟩
  simp only
  have hklen := entropyDraw_length hkey
  rcases hiv : entropyDraw ivLength e1 with ⟨_ | iv, e2⟩
  · exact .inl ⟨.hashError, e2, by simp [errorsOf], fun _ h => absurd rfl h, rfl⟩
  right
  have hvlen := entropyDraw_length hiv
  simp only [keyLength, ivLength] at hklen hvlen
  have hout : (envelope s.params.cipher key iv data).length = 16 + r.srcLen.toNat := by simp [hvlen, hl]
  refine ⟨writeBytes (writeBytes s.mem r.key.toNat key) r.dst.toNat (envelope s.params.cipher key iv data), e2,
    by simp only [resultLength]; omega,
    fun h => writeBytes_wf (writeBytes_wf h (by omega)) (by omega), fun x hx hxk => ?_, fun _ h => absurd rfl h,
    by simp [resultLength, ivLength, hl, memWrite]⟩
  have := hxk rfl
  simp only [resultLength] at hx
  rw [readByte_writeBytes_outside _ _ _ _ (by omega), readByte_writeBytes_outside _ _ _ _ (by omega)]

theorem execEnc_cases {s t : State} (h : execEnc s = .next t) :
    ∃ c, s.pending = some c ∧ (RaisedBy .enc s t ∨ CompletedBy .enc c.regs s t) := by
  obtain ⟨c, hc, h⟩ := withCommand_next h
  refine ⟨c, hc, ?_⟩
  simp only at h
  split at h
  · cases h; exact .inl (raisedBy_self (by simp [errorsOf]))
  split at h
  · cases h; exact .inl (raisedBy_self (by simp [errorsOf]))
  split at h
  · cases h; exact .inl (raisedBy_self (by simp [errorsOf]))
  split at h
  · cases h; exact .inl (raisedBy_self (by simp [errorsOf]))
  rename_i hd
  obtain ⟨data, hdata, h⟩ := memRead_next h
  obtain ⟨key, -, h⟩ := memRead_next h
  cases h
  exact encFinish_cases c.regs key data s (readBytes_length hdata) (by simpa [ivLength] using hd)

theorem execEncG_cases {s t : State} (h : execEncG s = .next t) :
    ∃ c, s.pending = some c ∧ (RaisedBy .encG s t ∨ CompletedBy .encG c.regs s t) := by
  obtain ⟨c, hc, h⟩ := withCommand_next h
  refine ⟨c, hc, ?_⟩
  simp only at h
  split at h
  · cases h; exact .inl (raisedBy_self (by simp [errorsOf]))
  split at h
  · cases h; exact .inl (raisedBy_self (by simp [errorsOf]))
  rename_i hk
  split at h
  · cases h; exact .inl (raisedBy_self (by simp [errorsOf]))
  rename_i hd
  obtain ⟨data, hdata, h⟩ := memRead_next h
  cases h
  exact encGFinish_cases c.regs data s (readBytes_length hdata) (by simpa [keyLength] using hk)
    (by simpa [ivLength] using hd)

theorem execDec_cases {s t : State} (h : execDec s = .next t) :
    ∃ c, s.pending = some c ∧ (RaisedBy .dec s t ∨ CompletedBy .dec c.regs s t) := by
  obtain ⟨c, hc, h⟩ := withCommand_next h
  refine ⟨c, hc, ?_⟩
  simp only at h
  generalize hm : (if c.regs.srcLen.toNat ≥ ivLength then c.regs.srcLen.toNat - ivLength else 0) = m at h
  split at h
  · cases h; exact .inl (raisedBy_self (by simp [errorsOf]))
  split at h
  · cases h; exact .inl (raisedBy_self (by simp [errorsOf]))
  split at h
  · cases h; exact .inl (raisedBy_self (by simp [errorsOf]))
  split at h
  · cases h; exact .inl (raisedBy_self (by simp [errorsOf]))
  rename_i hd
  split at h
  · cases h; exact .inl (raisedBy_self (by simp [errorsOf]))
  rename_i hn
  obtain ⟨env, henv, h⟩ := memRead_next h
  obtain ⟨key, -, h⟩ := memRead_next h
  cases h
  have hl := readBytes_length henv
  simp only [ivLength, Nat.not_lt] at hn
  obtain rfl : c.regs.srcLen.toNat - 16 = m := by simpa [ivLength, hn] using hm
  right
  have := completedBy_write (i := .dec) (r := c.regs) (s := s) (ent := s.entropy)
    (out := ctrCrypt s.params.cipher key (env.take ivLength) (env.drop ivLength))
    (by simp [resultLength, hl, ivLength]) (by simpa [resultLength] using hd) fun _ _ => rfl
  simpa [resultLength] using this

theorem execStretch_cases {s t : State} (h : execStretch s = .next t) :
    ∃ c, s.pending = some c ∧ (RaisedBy .stretch s t ∨ CompletedBy .stretch c.regs s t) := by
  obtain ⟨c, hc, h⟩ := withCommand_next h
  refine ⟨c, hc, ?_⟩
  simp only at h
  split at h
  · cases h; exact .inl (raisedBy_self (by simp [errorsOf]))
  rename_i hz
  split at h
  · cases h; exact .inl (raisedBy_self (by simp [errorsOf]))
  split at h
  · cases h; exact .inl (raisedBy_self (by simp [errorsOf]))
  rename_i hd
  obtain ⟨data, -, h⟩ := memRead_next h
  cases h
  obtain ⟨n, hn⟩ := Nat.exists_eq_succ_of_ne_zero fun h0 => hz (.inl h0)
  exact .inr (completedBy_write (ent := s.entropy) (by rw [hn]; simp [resultLength])
    (by simpa [resultLength] using hd) fun _ _ => rfl)

theorem execDerive_cases {s t : State} (h : execDerive s = .next t) :
    ∃ c, s.pending = some c ∧ (RaisedBy .derive s t ∨ CompletedBy .derive c.regs s t) := by
  obtain ⟨c, hc, h⟩ := withCommand_next h
  refine ⟨c, hc, ?_⟩
  split at h
  · cases h; exact .inl (raisedBy_self (by simp [errorsOf]))
  split at h
  · cases h; exact .inl (raisedBy_self (by simp [errorsOf]))
  split at h
  · cases h; exact .inl (raisedBy_self (by simp [errorsOf]))
  split at h
  · cases h; exact .inl (raisedBy_self (by simp [errorsOf]))
  rename_i hd
  obtain ⟨pw, -, h⟩ := memRead_next h
  obtain ⟨salt, -, h⟩ := memRead_next h
  cases h
  exact .inr (completedBy_write (ent := s.entropy)
    (by rw [show deriveIterations = 9999 + 1 from rfl, stretchA_length]; rfl)
    (by simpa [resultLength, deriveSize] using hd) fun _ _ => rfl)

/-- Everything a command can do: it runs on a snapshot, and either raises an error its table row names, or completes. -/
theorem exec_cases {i : Instr} {s t : State} (h : exec i s = .next t) :
    ∃ c, s.pending = some c ∧ (RaisedBy i s t ∨ CompletedBy i c.regs s t) := by
  cases i with
  | hasha => exact execHasha_cases h
  | hashb => exact execHashb_cases h
  | hashc => exact execHashc_cases h
  | rsta => obtain ⟨c, hc, h⟩ := execRsta_cases h; exact ⟨c, hc, .inr h⟩
  | rstb => obtain ⟨c, hc, h⟩ := execRstb_cases h; exact ⟨c, hc, .inr h⟩
  | rstc => obtain ⟨c, hc, h⟩ := execRstc_cases h; exact ⟨c, hc, .inr h⟩
  | enc => exact execEnc_cases h
  | encG => exact execEncG_cases h
  | dec => exact execDec_cases h
  | stretch => exact execStretch_cases h
  | derive => exact execDerive_cases h

end Sys2Proof.Machine
end

