-- ==== Sys2Proof/Laws/Agents.lean ====
section
/-! SUPPORT. What a turn can do, said once: the register map, `hostOp_cases` for a host operation, `step_cases` for a step. -/

namespace Sys2Proof.Machine

/-! ## The register map -/

theorem regAt_offset (r : Reg) : regAt (regOffset r) = some r := by cases r <;> rfl

theorem regOffset_of_regAt {off : BitVec 8} {r : Reg} (h : regAt off = some r) : regOffset r = off := by
  simpa using List.find?_some h

theorem regAccessLegal_offset (r : Reg) : regAccessLegal (regOffset r) 32 = true := by cases r <;> rfl

theorem readOffset_offset (s : State) (r : Reg) : readOffset s (regOffset r) = readReg s r := by
  simp [readOffset, regAt_offset]

theorem hostOp_writeReg (r : Reg) (v : Word) (s : State) :
    hostOp (.writeReg (regOffset r) 32 v) s = writeReg r v s := by
  simp [hostOp, regAccessLegal_offset, writeOffset, regAt_offset]

theorem hostOp_readReg (r : Reg) (t : Nat) (s : State) :
    hostOp (.readReg (regOffset r) 32 t) s = .next (hostAssign t (.word (readReg s r)) s) := by
  simp [hostOp, regAccessLegal_offset, readOffset_offset]

/-- A write to a register other than CMD goes to the live registers, or nowhere. -/
theorem writeReg_of_ne_CMD {r : Reg} (v : Word) (s : State) (hr : r ≠ .CMD) :
    writeReg r v s = .next { s with regs := writeRegs r v s.regs } := by simp [writeReg, hr]

theorem writeRegs_readOnly {r : Reg} (v : Word) (x : Regs) (hr : regAccess r = .readOnly) : writeRegs r v x = x := by
  cases r <;> first | rfl | cases hr

theorem readReg_writeRegs {r : Reg} (v : Word) (s : State) (hr : regAccess r = .readWrite) :
    readReg { s with regs := writeRegs r v s.regs } r = v := by
  cases r <;> first | rfl | cases hr

/-! ## Turns -/

/-- Everything a host operation that goes on can do: change live registers, change the host, or, while no command is
pending, issue one or write a byte below MEM_SIZE. -/
theorem hostOp_cases {op : HostOp} {s t : State} (h : hostOp op s = .next t) :
    (∃ x, t = { s with regs := x }) ∨ (∃ x, t = { s with host := x }) ∨
    (statusBUSY s.status = false ∧
      ((∃ w, t = accept w s) ∨ ∃ a b, a < s.params.memSize ∧ t = memWrite a [b] s)) := by
  cases op with
  | writeReg off width v =>
    simp only [hostOp] at h
    split at h
    · unfold writeOffset at h
      split at h
      · unfold writeReg at h
        split at h
        · split at h
          · cases h
          · rename_i hb
            cases h; exact .inr (.inr ⟨by simpa using hb, .inl ⟨_, rfl⟩⟩)
        · cases h; exact .inl ⟨_, rfl⟩
      · cases h; exact .inl ⟨s.regs, rfl⟩
    · cases h
  | readReg off width v =>
    simp only [hostOp] at h
    split at h
    · cases h; exact .inr (.inl ⟨_, rfl⟩)
    · cases h
  | writeMem a b =>
    simp only [hostOp] at h
    split at h
    · rename_i hl
      simp only [hostMemLegal, Bool.and_eq_true, Bool.not_eq_true', decide_eq_true_eq] at hl
      cases h; exact .inr (.inr ⟨hl.1, .inr ⟨a, b, hl.2, rfl⟩⟩)
    · cases h
  | readMem a v =>
    simp only [hostOp] at h
    split at h
    · obtain ⟨b, -, h⟩ := memRead_next h
      cases h; exact .inr (.inl ⟨_, rfl⟩)
    · cases h
  | clear t => cases h; exact .inr (.inl ⟨_, rfl⟩)
  | bnz v m target =>
    simp only [hostOp] at h
    split at h
    · cases h; exact .inr (.inl ⟨_, rfl⟩)
    · cases h; exact .inr (.inl ⟨s.host, rfl⟩)
  | jump target => cases h; exact .inr (.inl ⟨_, rfl⟩)

/-- Everything a step can do, from the state with the turn used up: nothing, a host operation, the execution of the pending
command, the error of an illegal one, or the reset. -/
theorem step_cases {s t : State} (h : step s = .next t) :
    t = popSched s ∨
    (nextAgent s = .host ∧ ∃ op, s.host.prog[s.host.pos]? = some op ∧ hostOp op (hostNext (popSched s)) = .next t) ∨
    (nextAgent s = .unit ∧ ∃ c, s.pending = some c ∧
      ((∃ i, decode c.word = .legal i ∧ exec i (popSched s) = .next t) ∨
        ∃ why, decode c.word = .illegal why ∧ t = raiseError .illegalCommand (popSched s))) ∨
    (nextAgent s = .reset ∧ t = hardReset (popSched s)) := by
  unfold step at h
  cases ha : nextAgent s with
  | host =>
    rw [ha] at h
    simp only [turn, hostTurn, popSched_host] at h
    split at h
    · cases h; exact .inl rfl
    · exact .inr (.inl ⟨rfl, _, ‹_›, h⟩)
  | unit =>
    rw [ha] at h
    simp only [turn, unitTurn, popSched_pending] at h
    split at h
    · cases h; exact .inl rfl
    · rename_i c hc
      split at h
      · exact .inr (.inr (.inl ⟨rfl, c, hc, .inl ⟨_, ‹_›, h⟩⟩))
      · cases h; exact .inr (.inr (.inl ⟨rfl, c, hc, .inr ⟨_, ‹_›, rfl⟩⟩))
  | reset =>
    rw [ha] at h
    cases h; exact .inr (.inr (.inr ⟨rfl, rfl⟩))

/-- While a command is pending a host operation goes on, or is HostProtocol: no host read of MEM happens then. -/
theorem hostOp_busy (op : HostOp) {s : State} (hb : statusBUSY s.status = true) :
    hostOp op s = .fault .hostProtocol ∨ ∃ t, hostOp op s = .next t := by
  cases op with
  | writeReg off w v =>
    simp only [hostOp]
    split
    · unfold writeOffset
      split
      · unfold writeReg
        split
        · simp
        · exact .inr ⟨_, rfl⟩
      · exact .inr ⟨_, rfl⟩
    · exact .inl rfl
  | readReg off w v => simp only [hostOp]; split; exacts [.inr ⟨_, rfl⟩, .inl rfl]
  | writeMem a b => simp [hostOp, hostMemLegal, hb]
  | readMem a v => simp [hostOp, hostMemLegal, hb]
  | clear v => exact .inr ⟨_, rfl⟩
  | bnz v m target => simp only [hostOp]; split; exacts [.inr ⟨_, rfl⟩, .inr ⟨_, rfl⟩]
  | jump target => exact .inr ⟨_, rfl⟩

/-- A host turn while a command is pending leaves everything of the block but the live registers. -/
theorem hostTurn_busy {s t : State} (hb : statusBUSY s.status = true) (h : hostTurn s = .next t) :
    t.pending = s.pending ∧ t.status = s.status ∧ t.resLen = s.resLen ∧ t.params = s.params ∧ t.mem = s.mem ∧
      t.entropy = s.entropy ∧ t.sched = s.sched := by
  unfold hostTurn at h
  split at h
  · cases h; exact ⟨rfl, rfl, rfl, rfl, rfl, rfl, rfl⟩
  · rcases hostOp_cases h with ⟨x, rfl⟩ | ⟨x, rfl⟩ | ⟨hb', -⟩
    · exact ⟨rfl, rfl, rfl, rfl, rfl, rfl, rfl⟩
    · exact ⟨rfl, rfl, rfl, rfl, rfl, rfl, rfl⟩
    · change statusBUSY s.status = false at hb'
      rw [hb] at hb'; cases hb'

/-- A run whose first step goes on. -/
theorem run_succ_of_next {M : Host.Core} {k : Nat} {s t : M.State} (h : M.step s = .next t) :
    M.run (k + 1) s = M.run k t := by
  simp only [Host.Core.run, h]

theorem core_run_succ_of_next {k : Nat} {s t : State} (h : step s = .next t) :
    core.run (k + 1) s = core.run k t := run_succ_of_next (M := core) h

/-! ## How a command ends -/

theorem raiseError_endsInError (s : State) (e : ErrorCode) : EndsInError (errorNumber e) s (raiseError e s) :=
  ⟨by cases e <;> rfl, rfl, rfl, fun _ => rfl, rfl, rfl, rfl, rfl⟩

theorem complete_endsComplete (s : State) (n : Nat) : EndsComplete n s (complete n s) := ⟨rfl, rfl, rfl, rfl, rfl, rfl, rfl⟩

/-- A command that completes with one output holds it at DST, and every other byte as before. -/
theorem complete_memWrite (s : State) (n a : Nat) (out : Bytes) (h : out.length = n) :
    EndsComplete n s (complete n (memWrite a out s)) ∧ memHolds (complete n (memWrite a out s)) a out ∧
      memSameOutside s (complete n (memWrite a out s)) a n :=
  ⟨⟨rfl, rfl, rfl, rfl, rfl, rfl, rfl⟩, fun _ hi => readByte_writeBytes_inside _ _ _ _ hi,
    fun _ hx => readByte_writeBytes_outside _ _ _ _ (by omega)⟩

theorem statusError_ne_done (e : ErrorCode) : statusError e ≠ 0x2 := by cases e <;> decide

/-- The output length of DEC (R165), which its rule computes by cases. -/
theorem decLength (n : Nat) : (if n ≥ ivLength then n - ivLength else 0) = n - 16 := by
  unfold ivLength
  by_cases h : n ≥ 16
  · rw [if_pos h]
  · rw [if_neg h]; omega

end Sys2Proof.Machine
end

