-- ==== Sys2Proof/Laws/Decode.lean ====
section
/-! SUPPORT. The fields of a command word, as numbers. -/

namespace Sys2Proof

theorem opField_toNat (w : Word) : (opField w).toNat = w.toNat % 256 := by
  simp [opField, BitVec.extractLsb'_toNat]

theorem gField_toNat (w : Word) : (gField w).toNat = w.toNat / 256 % 2 := by
  simp [gField, BitVec.extractLsb'_toNat, Nat.shiftRight_eq_div_pow]

theorem rsvField_toNat (w : Word) : (rsvField w).toNat = w.toNat / 512 := by
  have := w.isLt
  simp only [rsvField, BitVec.extractLsb'_toNat, Nat.shiftRight_eq_div_pow]
  omega

/-- A word is its three fields side by side (R70). -/
theorem word_eq_fields (w : Word) :
    w.toNat = (rsvField w).toNat * 512 + (gField w).toNat * 256 + (opField w).toNat := by
  rw [opField_toNat, gField_toNat, rsvField_toNat]; omega

theorem rsvField_eq_zero (w : Word) : rsvField w = 0 ↔ w.toNat / 512 = 0 := by
  rw [← rsvField_toNat, ← BitVec.toNat_inj]; rfl

theorem gField_eq_one (w : Word) : gField w = 1 ↔ w.toNat / 256 % 2 = 1 := by
  rw [← gField_toNat, ← BitVec.toNat_inj]; rfl

theorem opField_eq (w : Word) (n : BitVec 8) : opField w = n ↔ w.toNat % 256 = n.toNat := by
  rw [← opField_toNat, ← BitVec.toNat_inj]

end Sys2Proof
end

