-- ==== Sys2Proof/Laws/PerInstr.lean ====
section
/-! SUPPORT. What holds of every command as syntax: its word is well formed, decodes to it, and is its row's of the opcode table. -/

/-- The command is well formed, and its command word decodes to it (R71, R81). -/
def Sys2Proof.Laws.Encoding.Statement (i : Sys2Proof.Instr) : Prop :=
  i.wf = true ∧ Sys2Proof.decode (Sys2Proof.encode i) = .legal i ∧
    Sys2Proof.decodeTableWord 32 (Sys2Proof.encode i).toNat = some i

theorem Sys2Proof.Laws.Encoding.hasha : Sys2Proof.Laws.Encoding.Statement .hasha := ⟨rfl, rfl, rfl⟩
theorem Sys2Proof.Laws.Encoding.hashb : Sys2Proof.Laws.Encoding.Statement .hashb := ⟨rfl, rfl, rfl⟩
theorem Sys2Proof.Laws.Encoding.hashc : Sys2Proof.Laws.Encoding.Statement .hashc := ⟨rfl, rfl, rfl⟩
theorem Sys2Proof.Laws.Encoding.rsta : Sys2Proof.Laws.Encoding.Statement .rsta := ⟨rfl, rfl, rfl⟩
theorem Sys2Proof.Laws.Encoding.rstb : Sys2Proof.Laws.Encoding.Statement .rstb := ⟨rfl, rfl, rfl⟩
theorem Sys2Proof.Laws.Encoding.rstc : Sys2Proof.Laws.Encoding.Statement .rstc := ⟨rfl, rfl, rfl⟩
theorem Sys2Proof.Laws.Encoding.enc : Sys2Proof.Laws.Encoding.Statement .enc := ⟨rfl, rfl, rfl⟩
theorem Sys2Proof.Laws.Encoding.encG : Sys2Proof.Laws.Encoding.Statement .encG := ⟨rfl, rfl, rfl⟩
theorem Sys2Proof.Laws.Encoding.dec : Sys2Proof.Laws.Encoding.Statement .dec := ⟨rfl, rfl, rfl⟩
theorem Sys2Proof.Laws.Encoding.stretch : Sys2Proof.Laws.Encoding.Statement .stretch := ⟨rfl, rfl, rfl⟩
theorem Sys2Proof.Laws.Encoding.derive : Sys2Proof.Laws.Encoding.Statement .derive := ⟨rfl, rfl, rfl⟩
end

