-- ==== Sys2Proof/Laws/Script.lean ====
section
/-! SUPPORT. Scripts: labels and operations of a script put together from parts. -/

namespace Sys2Proof.Machine

/-- The number of host operations of a list of statements. -/
def scriptSize (p : List Stmt) : Nat := (p.map stmtSize).sum

theorem scriptSize_append (a b : List Stmt) : scriptSize (a ++ b) = scriptSize a + scriptSize b := by
  simp [scriptSize]

theorem scriptLabels_append (a b : List Stmt) : scriptLabels (a ++ b) = scriptLabels a ++ scriptLabels b := by
  induction a with
  | nil => rfl
  | cons x rest ih => cases x <;> simp [scriptLabels, ih]

theorem labelPos_append (l at0 : Nat) (a b : List Stmt) :
    labelPos l at0 (a ++ b) = (labelPos l at0 a).or (labelPos l (at0 + scriptSize a) b) := by
  induction a generalizing at0 with
  | nil => simp [labelPos, scriptSize]
  | cons s rest ih =>
    simp only [List.cons_append, labelPos]
    split
    · simp
    · rw [ih]; simp [scriptSize, Nat.add_assoc]

/-- A label the script does not define has no position in it. -/
theorem labelPos_of_notMem (l at0 : Nat) (p : List Stmt) (h : l ∉ scriptLabels p) : labelPos l at0 p = none := by
  induction p generalizing at0 with
  | nil => rfl
  | cons x rest ih =>
    cases x <;> simp_all [labelPos, scriptLabels]
    omega

theorem assembleFrom_append (script : List Stmt) (at0 : Nat) (a b : List Stmt) :
    assembleFrom script at0 (a ++ b) =
      (assembleFrom script at0 a).bind fun x => (assembleFrom script (at0 + scriptSize a) b).map (x ++ ·) := by
  induction a generalizing at0 with
  | nil => simp [assembleFrom, scriptSize]
  | cons s rest ih =>
    have h : at0 + scriptSize (s :: rest) = at0 + stmtSize s + scriptSize rest := by simp [scriptSize, Nat.add_assoc]
    simp only [List.cons_append, assembleFrom, ih, h]
    cases expandStmt script at0 s <;> cases assembleFrom script (at0 + stmtSize s) rest <;> simp
    cases assembleFrom script (at0 + stmtSize s + scriptSize rest) b <;> simp

/-- Statements assemble the same in two scripts that place the labels they branch to alike. -/
theorem assembleFrom_congr (s1 s2 : List Stmt) (at0 : Nat) (p : List Stmt)
    (h : ∀ l, (∃ v m, Stmt.bnz v m l ∈ p) ∨ Stmt.b l ∈ p → labelPos l 0 s1 = labelPos l 0 s2) :
    assembleFrom s1 at0 p = assembleFrom s2 at0 p := by
  induction p generalizing at0 with
  | nil => rfl
  | cons x rest ih =>
    have hx : expandStmt s1 at0 x = expandStmt s2 at0 x := by
      cases x with
      | bnz v m l => simp [expandStmt, h l (.inl ⟨v, m, by simp⟩)]
      | b l => simp [expandStmt, h l (.inr (by simp))]
      | _ => rfl
    simp only [assembleFrom]
    rw [hx, ih]
    rintro l (⟨v, m, hm⟩ | hm)
    · exact h l (.inl ⟨v, m, by simp [hm]⟩)
    · exact h l (.inr (by simp [hm]))

/-- The byte writes of a `wrm`, by index. -/
theorem opsWrm_eq (a : Nat) (b : Bytes) : opsWrm a b = b.zipIdx.map fun x => HostOp.writeMem (a + x.2) x.1 := by
  have h : ∀ k, opsWrm (a + k) b = (b.zipIdx k).map fun x => HostOp.writeMem (a + x.2) x.1 := by
    induction b with
    | nil => exact fun _ => rfl
    | cons d rest ih => intro k; simp [opsWrm, ← ih]; rfl
  simpa using h 0

/-- The byte reads of an `rdm`, by index. -/
theorem opsRdm_eq (t a n : Nat) : opsRdm t a n = (List.range n).map fun i => HostOp.readMem (a + i) t := by
  induction n generalizing a with
  | zero => rfl
  | succ n ih => rw [opsRdm, ih, List.range_succ_eq_map]; simp [Function.comp_def, Nat.add_assoc, Nat.add_comm 1]

/-- A statement that expands does so to as many operations as its size says. -/
theorem expandStmt_length {script : List Stmt} {at0 : Nat} {st : Stmt} {ops : List HostOp}
    (h : expandStmt script at0 st = some ops) : ops.length = stmtSize st := by
  cases st <;> simp [expandStmt] at h <;> (try subst h) <;>
    (try simp [stmtSize, opsWrm_eq, opsRdm_eq, opsPoll, opsRun, opsIo])
  all_goals (obtain ⟨p, -, rfl⟩ := h; rfl)

theorem assembleFrom_length {script : List Stmt} {at0 : Nat} {q : List Stmt} {p : List HostOp}
    (h : assembleFrom script at0 q = some p) : p.length = scriptSize q := by
  induction q generalizing at0 p with
  | nil => simp [assembleFrom] at h; subst h; rfl
  | cons st rest ih =>
    simp only [assembleFrom] at h
    split at h
    · rename_i a b ha hb
      cases h
      simp [scriptSize, expandStmt_length ha, ih hb]
    · cases h

/-- A label stands at the position after the operations before its first definition. -/
theorem labelPos_of_split (l : Nat) (pre post : List Stmt) (h : l ∉ scriptLabels pre) :
    labelPos l 0 (pre ++ [Stmt.label l] ++ post) = some (scriptSize pre) := by
  simp [labelPos_append, labelPos_of_notMem l 0 pre h, labelPos, scriptSize]

end Sys2Proof.Machine
end

