-- ==== Sys2Proof/Laws/Streams.lean ====
section
/-! SUPPORT. Streams byte by byte, and the loops of the constructions over appended data. -/

namespace Sys2Proof.Machine

/-! ## Numbers as bytes -/

theorem ofNat_fromLe_div (b : Bytes) (j : Nat) : BitVec.ofNat 8 (fromLe b / 256 ^ j) = b.getD j 0 := by
  induction b generalizing j with
  | nil => simp [fromLe]
  | cons d rest ih =>
    have := d.isLt
    cases j with
    | zero => apply BitVec.eq_of_toNat_eq; simp [fromLe]; omega
    | succ j =>
      rw [pow_succ', ← Nat.div_div_eq_div_mul, show fromLe (d :: rest) / 256 = fromLe rest by simp only [fromLe]; omega,
        ih]
      simp

/-- Byte j of a bit vector, as a number's byte. -/
theorem extractLsb'_byte {n : Nat} (x : BitVec n) (j : Nat) :
    x.extractLsb' (8 * j) 8 = BitVec.ofNat 8 (x.toNat / 256 ^ j) := by
  apply BitVec.eq_of_toNat_eq
  simp only [BitVec.toNat_ofNat, BitVec.extractLsb'_toNat, Nat.shiftRight_eq_div_pow, pow_mul]
  norm_num

theorem le64_getElem? (x : U64) (j : Nat) (h : j < 8) : (le64 x)[j]? = some (x.extractLsb' (8 * j) 8) := by
  rw [le64, leBytes_getElem? _ _ _ h, extractLsb'_byte]

/-! ## Streams -/

theorem nthByte_succ (st : Stream) (k : Nat) : nthByte st (k + 1) = nthByte (nextByte st).2 k := rfl

theorem nthByte_add (st : Stream) (m k : Nat) : nthByte st (m + k) = nthByte (streamAfter m st) k := by
  simp [nthByte, streamAfter_add]

/-- The bytes a stream still holds come first. -/
theorem nthByte_rest (n v : Nat) (g : Gen) (j : Nat) (h : j < n) :
    nthByte ⟨leBytes n v, g⟩ j = BitVec.ofNat 8 (v / 256 ^ j) := by
  induction n generalizing v j with
  | zero => omega
  | succ n ih =>
    cases j with
    | zero => simp [nthByte, streamAfter, nextByte, leBytes]
    | succ j =>
      rw [nthByte_succ]
      simp only [nextByte, leBytes]
      rw [ih _ _ (by omega), Nat.div_div_eq_div_mul, pow_succ']

theorem streamAfter_rest (n v : Nat) (g : Gen) : streamAfter n ⟨leBytes n v, g⟩ = ⟨[], g⟩ := by
  induction n generalizing v with
  | zero => rfl
  | succ n ih => simpa [streamAfter, nextByte, leBytes] using ih _

/-- Eight bytes of an empty stream are one draw. -/
theorem streamAfter_eight (g : Gen) : streamAfter 8 ⟨[], g⟩ = ⟨[], (next64 g).2⟩ := by
  rw [show 8 = 7 + 1 from rfl, streamAfter]; exact streamAfter_rest 7 _ _

theorem streamAfter_blocks (k : Nat) (g : Gen) : streamAfter (8 * k) ⟨[], g⟩ = ⟨[], genAfter k g⟩ := by
  induction k generalizing g with
  | zero => rfl
  | succ k ih => rw [show 8 * (k + 1) = 8 + 8 * k by ring, streamAfter_add, streamAfter_eight, ih]; rfl

/-! ## Construction A -/

theorem squeezeBlocks_take (n m : Nat) (acc : U64) (g : Gen) (h : n ≤ m) :
    squeezeBlocks n acc g = (squeezeBlocks m acc g).take (8 * n) := by
  induction n generalizing m acc g with
  | zero => simp [squeezeBlocks]
  | succ n ih =>
    obtain ⟨m, rfl⟩ : ∃ m', m = m' + 1 := ⟨m - 1, by omega⟩
    have := ih m (squeezeMix acc (next64 g).1) (next64 g).2 (by omega)
    simp only [squeezeBlocks, this]
    rw [List.take_append, le64_length, show 8 * (n + 1) - 8 = 8 * n by omega,
      List.take_of_length_le (l := le64 _) (by rw [le64_length]; omega)]

/-! ## Construction B -/

theorem absorbB_append (a b : Bytes) (i : Nat) (buf : Bytes) (st : Stream) :
    absorbB (a ++ b) i buf st = absorbB b (i + a.length) (absorbB a i buf st).1 (absorbB a i buf st).2 := by
  induction a generalizing i buf st with
  | nil => rfl
  | cons d rest ih =>
    simp only [List.cons_append, absorbB, ih, List.length_cons]
    rw [show i + 1 + rest.length = i + (rest.length + 1) by ring]

theorem absorbB_stream (a : Bytes) (i : Nat) (buf : Bytes) (st : Stream) :
    (absorbB a i buf st).2 = streamAfter a.length st := by
  induction a generalizing i buf st with
  | nil => rfl
  | cons d rest ih => simp [absorbB, ih, streamAfter]

/-! ## Construction C -/

theorem absorbC_append (a b : Bytes) (i : Nat) (buf : Bytes) :
    absorbC (a ++ b) i buf = absorbC b (i + a.length) (absorbC a i buf) := by
  induction a generalizing i buf with
  | nil => rfl
  | cons d rest ih =>
    simp only [List.cons_append, absorbC, ih, List.length_cons]
    rw [show i + 1 + rest.length = i + (rest.length + 1) by ring]

theorem xorAll_append (a b : Bytes) : xorAll (a ++ b) = xorAll a ^^^ xorAll b := by
  induction a with
  | nil => simp [xorAll]
  | cons d rest ih => simp only [xorAll, List.cons_append, List.foldr_cons] at *; rw [ih, BitVec.xor_assoc]

theorem forwardFrom_getElem? (x : Byte) (b : Bytes) (j : Nat) (h : j < b.length) :
    (forwardFrom x b)[j]? = some (x ^^^ xorAll (b.take (j + 1))) := by
  induction b generalizing x j with
  | nil => simp at h
  | cons d rest ih =>
    cases j with
    | zero => simp [forwardFrom, xorAll, BitVec.xor_comm]
    | succ j =>
      rw [forwardFrom, List.getElem?_cons_succ, ih _ _ (by simpa using h)]
      simp only [xorAll, List.take_succ_cons, List.foldr_cons]
      congr 1; ac_rfl

/-- The rounds, with the last one taken off. -/
theorem roundsC_succ (n : Nat) (buf : Bytes) (st : Stream) :
    roundsC (n + 1) buf st = roundC (roundsC n buf st).1 (roundsC n buf st).2 := by
  induction n generalizing buf st with
  | zero => rfl
  | succ n ih => rw [roundsC, ih]; rfl

theorem roundC_stream (buf : Bytes) (st : Stream) : (roundC buf st).2 = streamAfter (2 * buf.length) st := by
  simp only [roundC, mapWithStream_stream, backwardDiffusion_length, forwardDiffusion_length, mapWithStream_length]
  rw [← streamAfter_add]; congr 1; ring

theorem roundsC_stream (n : Nat) (buf : Bytes) (st : Stream) :
    (roundsC n buf st).2 = streamAfter (2 * buf.length * n) st := by
  induction n with
  | zero => rfl
  | succ n ih => rw [roundsC_succ, roundC_stream, ih, ← streamAfter_add]; simp only [roundsC_length]; congr 1

/-! ## The cipher -/

/-- Byte i of the keystream is byte i mod 16 of block i / 16. -/
theorem keystream_getElem? (c : CipherChoice) (key : Bytes) (n : Nat) (c0 : U128) (i : Nat) (h : i < 16 * n) :
    (keystream c key n c0)[i]? = (encryptBlock c key (be128 (c0 + BitVec.ofNat 128 (i / 16))))[i % 16]? := by
  induction n generalizing c0 i with
  | zero => omega
  | succ n ih =>
    have hlen : (encryptBlock c key (be128 c0)).length = 16 := encryptBlock_length _ _ _ (be128_length _)
    rw [keystream]
    by_cases hi : i < 16
    · rw [List.getElem?_append_left (by omega)]
      simp [Nat.div_eq_of_lt hi, Nat.mod_eq_of_lt hi]
    · rw [List.getElem?_append_right (by omega), hlen, ih _ _ (by omega)]
      obtain ⟨k, rfl⟩ : ∃ k, i = k + 16 := ⟨i - 16, by omega⟩
      rw [Nat.add_sub_cancel, Nat.add_mod_right, Nat.add_div_right _ (show 0 < 16 by norm_num),
        show c0 + 1 + BitVec.ofNat 128 (k / 16) = c0 + BitVec.ofNat 128 (k / 16).succ by
          rw [Nat.succ_eq_add_one, BitVec.ofNat_add, BitVec.add_assoc, BitVec.add_comm 1]; rfl]

end Sys2Proof.Machine
end

