-- ==== Sys2Proof/Tests/Slice0.lean ====
section
/-! SUPPORT. Tests, each against a value the spec writes out (95_test_vectors.md unless another file is named), and for every
statement with hypotheses a witness that meets them, clause by clause, at the edge of their range. -/

namespace Sys2Proof.Machine

/-! ## Small states -/

/-- The n bytes the spec writes as the hex number v. -/
def hexBytes (n v : Nat) : Bytes := (leBytes n v).reverse

/-- Snapshot registers: input, output, and a key or salt region; the configuration registers as reset leaves them. -/
def testRegs (src srcLen dst key keyLen : Word) : Regs :=
  { Regs.afterReset Params.reference with src := src, srcLen := srcLen, dst := dst, key := key, keyLen := keyLen, aux := key,
                                          auxLen := keyLen }

/-- The reference block with a command of snapshot registers r pending, and MEM m. -/
def testState (r : Regs) (m : Memory) : State :=
  { State.reset with pending := some ⟨0, r⟩, status := 0x1, mem := m }

/-- The same, with the entropy source's next answers listed. -/
def withAnswers (answers : List EntropyAnswer) (s : State) : State := { s with entropy := ⟨answers, 0⟩ }

/-- The outcome is a next state. -/
def isNext : Out → Bool
  | .next _ => true
  | .fault _ => false
  | .refused _ => false

/-- The next state, or the state given where there is none. -/
def nextOr (s : State) : Out → State
  | .next t => t
  | .fault _ => s
  | .refused _ => s

theorem eq_next_of_isNext (s : State) {o : Out} (h : isNext o = true) : o = .next (nextOr s o) := by
  cases o with
  | next t => rfl
  | fault f => cases h
  | refused r => cases h

/-- STATUS, RES_LEN and the bytes MEM[a..a+n) of the next state. -/
def result (a n : Nat) : Out → Option (Word × Word × Option Bytes)
  | .next t => some (t.status, t.resLen, readBytes t.mem a n)
  | .fault _ => none
  | .refused _ => none

/-- The model fault of an outcome. -/
def faultOf : Out → Option Fault
  | .fault f => some f
  | .next _ => none
  | .refused _ => none

/-- "abc" at MEM[0]. -/
def abcMem : Memory := cellsAt 0 [0x61, 0x62, 0x63]

/-- K and IV of section 5. -/
def keyK : Bytes := (List.range 32).map (BitVec.ofNat 8)
def ivI : Bytes := (List.range 16).map (BitVec.ofNat 8)

/-- "abc" at MEM[0], K at MEM[0x100]. -/
def encMem : Memory := abcMem ++ cellsAt 0x100 keyK

/-- V-E2's envelope at MEM[0], K at MEM[0x100]. -/
def decMem : Memory := cellsAt 0 (hexBytes 19 0x000102030405060708090a0b0c0d0e0f3b0c67) ++ cellsAt 0x100 keyK

/-! ## Well-formedness: each check refuses an ill-formed term -/

theorem test_wf_offset_aligned : HostOp.wf Params.reference (.readReg 0x02 32 0) = false := by decide
theorem test_wf_width : HostOp.wf Params.reference (.writeReg 0x04 16 0) = false := by decide
theorem test_wf_write_address : HostOp.wf Params.reference (.writeMem 65536 0) = false := by decide
theorem test_wf_read_address : HostOp.wf Params.reference (.readMem 65536 0) = false := by decide
theorem test_wf_memSize_zero : Params.wf { Params.reference with memSize := 0 } = false := by decide
theorem test_wf_memSize_large : Params.wf { Params.reference with memSize := 2 ^ 31 + 1 } = false := by decide
theorem test_wf_label_twice : scriptWf [.label 1, .label 1] = false := by decide
theorem test_wf_branch_undefined : scriptWf [.label 1, .b 2] = false := by decide
theorem test_wf_bnz_undefined : scriptWf [.bnz 0 1 2, .label 1] = false := by decide
theorem test_wf_script : scriptWf [.label 1, .rd .STATUS 0, .bnz 0 1 1, .b 1] = true := by decide

/-! ## Decoding: the words of 30_encoding.md R70 to R72, bit by bit, RSV then G then OP -/

theorem test_decode_HASHA : decode 0b00000000000000000000000_0_00000001 = .legal .hasha := by decide
theorem test_decode_HASHB : decode 0b00000000000000000000000_0_00000010 = .legal .hashb := by decide
theorem test_decode_HASHC : decode 0b00000000000000000000000_0_00000011 = .legal .hashc := by decide
theorem test_decode_RSTA : decode 0b00000000000000000000000_0_00000100 = .legal .rsta := by decide
theorem test_decode_RSTB : decode 0b00000000000000000000000_0_00000101 = .legal .rstb := by decide
theorem test_decode_RSTC : decode 0b00000000000000000000000_0_00000110 = .legal .rstc := by decide
theorem test_decode_ENC : decode 0b00000000000000000000000_0_00000111 = .legal .enc := by decide
theorem test_decode_ENC_G : decode 0b00000000000000000000000_1_00000111 = .legal .encG := by decide
theorem test_decode_DEC : decode 0b00000000000000000000000_0_00001000 = .legal .dec := by decide
theorem test_decode_STRETCH : decode 0b00000000000000000000000_0_00001001 = .legal .stretch := by decide
theorem test_decode_DERIVE : decode 0b00000000000000000000000_0_00001010 = .legal .derive := by decide

/-- One word for each ground of R74: OP 0x00, 0x0B, 0xFF, G with another OP, the lowest and the highest bit of RSV. -/
theorem test_decode_illegal :
    decode 0b00000000000000000000000_0_00000000 = .illegal .opcodeZero ∧
    decode 0b00000000000000000000000_0_00001011 = .illegal .opcodeReserved ∧
    decode 0b00000000000000000000000_0_11111111 = .illegal .opcodeReserved ∧
    decode 0b00000000000000000000000_1_00001000 = .illegal .generateFlag ∧
    decode 0b00000000000000000000001_0_00000001 = .illegal .reservedBits ∧
    decode 0b10000000000000000000000_0_00000111 = .illegal .reservedBits := by decide

/-- The first step after reset runs the command placed, for every row of the opcode table. -/
theorem test_fetch_word : ∀ w ∈ [0x1, 0x2, 0x3, 0x4, 0x5, 0x6, 0x7, 0x107, 0x8, 0x9, 0xA],
    isNext (step (State.reset.withFetchWord 32 w)) = true := by decide +kernel

/-! ## The data functions -/

/-- V-A6, the 64-bit wrap, and V-A5, the short chunk. -/
theorem test_absorbA : absorbA 0xffffffffffffffff (List.replicate 8 0xff) = 0x2000 ∧
    absorbA 0x0123456789abcdef (hexBytes 9 0x000102030405060708) = 0x6e92375bfc01a5c1 := by decide

/-- V-B4. -/
theorem test_wordB : wordB 0x12345678 0x78563412 = 0xd50e6e62 ∧ wordB 0xffffffff 0xffffffff = 0xffffff7f := by decide

/-- V-B7: byte 16 folds onto byte 0. -/
theorem test_hashB_folds : hashB .splitMix64 0xdeadbeef (hexBytes 17 0x000102030405060708090a0b0c0d0e0f10) =
    hexBytes 16 0x48db53f8cb304d41e5d6797d3d6645e8 := by decide +kernel

/-- V-C1 and V-C2. -/
theorem test_foldSeed : foldSeed Params.reference.cSeed.toList = 0x0b450000024d3205 := by decide
theorem test_diffusion : forwardDiffusion (hexBytes 32 (1 <<< 248)) = List.replicate 32 0x01 ∧
    backwardDiffusion (hexBytes 32 1) = List.replicate 32 0x01 ∧
    backwardDiffusion (forwardDiffusion (hexBytes 32 (1 <<< 248))) = (List.replicate 16 [0x00, 0x01]).flatten := by
  decide +kernel

/-- V-C6: two rounds on one stream. -/
theorem test_hashC_two_rounds : hashC .splitMix64 Params.reference.cSeed.toList 2 [0x61, 0x62, 0x63] =
    hexBytes 32 0x0a39660d7f56b7b1d40c20b12c501f681a718e77e34e3d5ea43287b8c2abf02c := by decide +kernel

/-- V-E1, of NIST SP 800-38A. -/
theorem test_ctr_NIST :
    ctrCrypt .aes256 (hexBytes 32 0x603deb1015ca71be2b73aef0857d77811f352c073b6108d72d9810a30914dff4)
      (hexBytes 16 0xf0f1f2f3f4f5f6f7f8f9fafbfcfdfeff)
      (hexBytes 32 0x6bc1bee22e409f96e93d7e117393172aae2d8a571e03ac9c9eb76fac45af8e51) =
    hexBytes 32 0x601ec313775789a5b7a7f504bbf3d228f443e3ca4d62b59aca84e990cacaf5c5 := by decide +kernel

/-- V-E4, the counter's wrap at 2^128. -/
theorem test_ctr_wraps : ctrCrypt .aes256 keyK (List.replicate 16 0xff) (List.replicate 32 0x00) =
    hexBytes 32 0xe999e41d4ca770da5387117b5d8f57eef29000b62a499fd0a9f39a6add2e7780 := by decide +kernel

/-- V-E6, the partial last block. -/
theorem test_ctr_partial_block :
    ctrCrypt .aes256 keyK ivI (hexBytes 17 0x000102030405060708090a0b0c0d0e0f10) =
    hexBytes 17 0x5a6f06540cfe7791f8275f360ecea89d70 := by decide +kernel

/-- V-K4: three iterations, each longer than one block. -/
theorem test_stretchA : stretchA .splitMix64 0 40 3 [0x61, 0x62, 0x63] =
    hexBytes 40 0x12a43c9480f0d2c4fd95f02f12dce86294be8a8a3e927e1778ccc190083553984240cd569928f1b2 := by decide +kernel

/-! ## The commands -/

/-- V-A9. -/
theorem test_HASHA : result 0x200 5 (exec .hasha (testState { testRegs 0 3 0x200 0 0 with aSize := 5 } abcMem)) =
    some (0x2, 5, some (hexBytes 5 0x744415a1f3)) := by decide +kernel

/-- V-A13, one byte past the end. -/
theorem test_HASHA_address : result 0 0 (exec .hasha (testState { testRegs 0 3 65521 0 0 with aSize := 16 } abcMem)) =
    some (0x706, 0, some []) := by decide

/-- V-B8. -/
theorem test_HASHB : result 0x200 16 (exec .hashb (testState { testRegs 0 3 0x200 0 0 with bMagic := 0x12345678 } abcMem)) =
    some (0x2, 16, some (hexBytes 16 0x775f48ee756c6f2e65c46366aaac5a65)) := by decide +kernel

/-- V-B11. -/
theorem test_HASHB_address : result 0 0 (exec .hashb (testState (testRegs 0 3 65521 0 0) abcMem)) = some (0x706, 0, some []) := by
  decide

/-- V-C10. -/
theorem test_HASHC : result 0x200 32 (exec .hashc (testState (testRegs 0 0 0x200 0 0) [])) =
    some (0x2, 32, some (hexBytes 32 0x86aea62fc7ffeedb33ab73be7fc6b55814409d7e22eeb69812ed7f989f72ff48)) := by
  decide +kernel

/-- V-C12. -/
theorem test_HASHC_address : result 0 0 (exec .hashc (testState (testRegs 0 65537 0 0 0) [])) = some (0x706, 0, some []) := by
  decide

/-- V-A14, V-B12, V-C11: no register and no MEM byte changes. -/
theorem test_RSTA : result 0 3 (exec .rsta (testState (testRegs 65535 9 65535 0 0) abcMem)) =
    some (0x2, 0, some [0x61, 0x62, 0x63]) := by decide
theorem test_RSTB : result 0 3 (exec .rstb (testState (testRegs 65535 9 65535 0 0) abcMem)) =
    some (0x2, 0, some [0x61, 0x62, 0x63]) := by decide
theorem test_RSTC : result 0 3 (exec .rstc (testState (testRegs 65535 9 65535 0 0) abcMem)) =
    some (0x2, 0, some [0x61, 0x62, 0x63]) := by decide

/-- V-E2. -/
theorem test_ENC : result 0x200 19 (exec .enc (withAnswers [.returns ivI] (testState (testRegs 0 3 0x200 0x100 32) encMem))) =
    some (0x2, 19, some (hexBytes 19 0x000102030405060708090a0b0c0d0e0f3b0c67)) := by decide +kernel

/-- V-E10: KEY_LEN 31. -/
theorem test_ENC_key_length : result 0 0 (exec .enc (testState (testRegs 0 3 0x200 0x100 31) encMem)) =
    some (0x206, 0, some []) := by decide

/-- V-E11: the key first, then the IV; KEY_LEN 0. -/
theorem test_ENC_G :
    let o := exec .encG (withAnswers [.returns keyK, .returns ivI] (testState (testRegs 0 3 0x200 0x100 0) abcMem))
    result 0x200 19 o = some (0x2, 19, some (hexBytes 19 0x000102030405060708090a0b0c0d0e0f3b0c67)) ∧
      result 0x100 32 o = some (0x2, 19, some keyK) := by decide +kernel

/-- V-E12: a failed IV draw leaves KEY unwritten. -/
theorem test_ENC_G_entropy : result 0x100 32
    (exec .encG (withAnswers [.returns keyK, .fails] (testState (testRegs 0 3 0x200 0x100 0) abcMem))) =
    some (0x506, 0, none) := by decide

/-- V-E8: a wrong key is no error. -/
theorem test_DEC_wrong_key : result 0x200 3 (exec .dec (testState (testRegs 0 19 0x200 0x100 32)
      (writeBytes decMem 0x100 [0x01]))) = some (0x2, 3, some [0xab, 0x06, 0x01]) := by decide +kernel

/-- V-E13: ADDRESS_ERROR before CRYPTO_ERROR. -/
theorem test_DEC_priority : result 0 0 (exec .dec (testState (testRegs 65535 5 0x200 0x100 32) decMem)) =
    some (0x706, 0, some []) := by decide

/-- V-K2. -/
theorem test_STRETCH : result 0x200 16
    (exec .stretch (testState { testRegs 0 3 0x200 0 0 with iter := 2, osize := 16 } abcMem)) =
    some (0x2, 16, some (hexBytes 16 0x787f57b59bf4cf2ed970035fd8e94767)) := by decide +kernel

/-- V-K8: INVALID_INPUT before ADDRESS_ERROR. -/
theorem test_STRETCH_priority : result 0 0
    (exec .stretch (testState { testRegs 65535 2 0x200 0 0 with iter := 0, osize := 16 } abcMem)) =
    some (0x106, 0, some []) := by decide

/-- V-K9: AUX_LEN 0, and SRC_LEN 0. -/
theorem test_DERIVE_no_salt : result 0 0 (exec .derive (testState (testRegs 0 3 0x200 0x100 0) abcMem)) =
    some (0x106, 0, some []) := by decide
theorem test_DERIVE_no_password : result 0 0 (exec .derive (testState (testRegs 0 0 0x200 0 3) abcMem)) =
    some (0x106, 0, some []) := by decide

/-! ## Witnesses: the hypotheses of each statement are met -/

theorem witness_IllegalWordsRaiseIllegalCommand :
    statusBUSY State.reset.status = false ∧
    ∀ w ∈ [0x00, 0x0B, 0xFF, 0x100, 0x101, 0x106, 0x108, 0x10A, 0x200, 0x207, 0x80000001],
      (State.reset.withFetchWord 32 w).pending = some ⟨BitVec.ofNat 32 w, State.reset.regs⟩ ∧
      (decode (BitVec.ofNat 32 w) = .illegal .opcodeZero ∨ decode (BitVec.ofNat 32 w) = .illegal .opcodeReserved ∨
        decode (BitVec.ofNat 32 w) = .illegal .generateFlag ∨ decode (BitVec.ofNat 32 w) = .illegal .reservedBits) := by
  decide

theorem witness_CommandWriteIsAccepted : statusBUSY State.reset.status = false := by decide

theorem witness_AccessesWhileBusy : statusBUSY (testState (testRegs 0 0 0 0 0) []).status = true ∧
    regAccess .SRC = .readWrite ∧ regAccess .C_ROUNDS = .readWrite := by decide

/-- Misaligned, too narrow, the two ends of the unmapped range, a read-only register, the last aligned offsets. -/
theorem witness_RegisterAccessRules :
    (0x01 : BitVec 8).toNat % 4 ≠ 0 ∧ 16 ≠ 32 ∧
    ((0x60 : BitVec 8).toNat % 4 = 0 ∧ 0x60 ≤ (0x60 : BitVec 8).toNat) ∧
    ((0xFC : BitVec 8).toNat % 4 = 0 ∧ 0x60 ≤ (0xFC : BitVec 8).toNat) ∧
    regAccess .STATUS = .readOnly ∧ regAccess .MEMSIZE = .readOnly ∧
    ((0x5C : BitVec 8).toNat % 4 = 0 ∧ (0x5C : BitVec 8) ≠ 0x00) := by decide

theorem witness_RegisterWriteReadsBack : regAccess .A_SIZE = .readWrite ∧ Reg.STATUS ≠ .A_SIZE ∧
    ¬(Reg.A_SIZE = .A_SIZE ∧ Reg.STATUS = .OSIZE_A) ∧ regAccess .SRC = .readWrite := by decide

/-- The last address of MEM, written and unwritten, and the first beyond it. -/
theorem witness_HostMemoryAccess : statusBUSY State.reset.status = false ∧ 65535 < State.reset.params.memSize ∧
    readByte (memWrite 65535 [0x61] State.reset).mem 65535 = some 0x61 ∧ readByte State.reset.mem 65535 = none ∧
    State.reset.params.memSize ≤ 65536 := by decide

/-- A script with a backward and a forward branch. -/
def branchScript : List Stmt :=
  [Stmt.wrm 0 [0x61], Stmt.label 0, Stmt.rdm 0 1 2, Stmt.bnz 1 1 0, Stmt.b 5, Stmt.cmdWord 0, Stmt.label 5]

/-- A fresh label; and a script that assembles, split at each of its branches and at the label each goes to. -/
theorem witness_PseudoInstructionsExpand :
    (7 ∉ scriptLabels ([Stmt.label 0, Stmt.b 0] ++ [Stmt.bnz 1 2 0]) ∧
      (∀ x m, Stmt.bnz x m 7 ∉ [Stmt.label 0, Stmt.b 0] ++ [Stmt.bnz 1 2 0]) ∧
      Stmt.b 7 ∉ [Stmt.label 0, Stmt.b 0] ++ [Stmt.bnz 1 2 0]) ∧
    scriptWf branchScript = true ∧ (assemble branchScript).isSome = true ∧
    (branchScript = branchScript.take 3 ++ [Stmt.bnz 1 1 0] ++ branchScript.drop 4 ∧
      branchScript = branchScript.take 1 ++ [Stmt.label 0] ++ branchScript.drop 2 ∧
      0 ∉ scriptLabels (branchScript.take 1)) ∧
    (branchScript = branchScript.take 4 ++ [Stmt.b 5] ++ branchScript.drop 5 ∧
      branchScript = branchScript.take 6 ++ [Stmt.label 5] ++ branchScript.drop 7 ∧
      5 ∉ scriptLabels (branchScript.take 6)) := by
  refine ⟨⟨by decide, fun x m h => ?_, by decide⟩, by decide, by decide, by decide, by decide⟩
  simp at h

/-- The plain statements, each with the access the tables of section 8 write for it; a branch to the label at
position 3. -/
theorem test_assemble : assemble [.wr .SRC 5, .cmd .encG, .cmdWord 0xB, .label 1, .rd .STATUS 0, .wrm 8 [0x61, 0x62],
      .rdm 8 2 3, .bnz 0 4 1] =
    some [.writeReg 0x08 32 5, .writeReg 0x00 32 0x107, .writeReg 0x00 32 0xB, .readReg 0x04 32 0, .writeMem 8 0x61,
      .writeMem 9 0x62, .clear 3, .readMem 8 3, .readMem 9 3, .bnz 0 4 3] := by decide

/-- The last byte of MEM as input, and the last 32 as output. -/
theorem witness_ResetLeavesMemUnwritten : 65535 < State.reset.params.memSize ∧
    (testRegs 65535 1 65504 0 0).src.toNat < State.reset.params.memSize ∧ (testRegs 65535 1 65504 0 0).srcLen = 1 ∧
    (testRegs 65535 1 65504 0 0).dst.toNat + 32 ≤ State.reset.params.memSize := by decide

/-- A command, an illegal word, a schedule with an entry and one without. -/
theorem witness_StepRunsTheDecodedCommand :
    (∃ c, (State.reset.withFetchWord 32 0x107).pending = some c ∧ nextAgent (State.reset.withFetchWord 32 0x107) = .unit ∧
      decode c.word = .legal .encG ∧ (State.reset.withFetchWord 32 0x107).sched = .unit :: []) ∧
    (∃ c, (State.reset.withFetchWord 32 0xB).pending = some c ∧ nextAgent (State.reset.withFetchWord 32 0xB) = .unit ∧
      decode c.word = .illegal .opcodeReserved) ∧
    (testState (testRegs 0 0 0 0 0) []).pending = some ⟨0, testRegs 0 0 0 0 0⟩ ∧
    (testState (testRegs 0 0 0 0 0) []).sched = [] :=
  ⟨⟨⟨0x107, State.reset.regs⟩, by decide⟩, ⟨⟨0xB, State.reset.regs⟩, by decide⟩, rfl, rfl⟩

/-- A position in the program, and the position just past its end. -/
theorem witness_StepRunsTheHostProgram :
    nextAgent (withHostProgram [.clear 0] State.reset) = .host ∧
    (withHostProgram [.clear 0] State.reset).host.prog[(withHostProgram [.clear 0] State.reset).host.pos]? = some (.clear 0) ∧
    nextAgent State.reset = .host ∧ State.reset.host.prog.length ≤ State.reset.host.pos := by decide

/-- A poll in the host's turns before the unit's; a MEM access there; and no host turn before a command whose own turn stops. -/
theorem witness_PendingCommandGetsItsStep :
    (let s := { withHostProgram (opsPoll 0 1) (testState (testRegs 0 0 0 0 0) []) with sched := [.host, .host] }
     s.pending = some ⟨0, testRegs 0 0 0 0 0⟩ ∧ statusBUSY s.status = true ∧ Agent.reset ∉ s.sched) ∧
    (let s := { withHostProgram [.readMem 0 0] (testState (testRegs 0 0 0 0 0) []) with sched := [.host, .unit] }
     s.pending = some ⟨0, testRegs 0 0 0 0 0⟩ ∧ statusBUSY s.status = true ∧ Agent.reset ∉ s.sched ∧
       faultOf (step s) = some .hostProtocol) ∧
    (let s := { testState (testRegs 0 0 0 0 0) [] with pending := some ⟨1, testRegs 0 1 0 0 0⟩, sched := [.unit] }
     s.pending = some ⟨1, testRegs 0 1 0 0 0⟩ ∧ statusBUSY s.status = true ∧ Agent.reset ∉ s.sched ∧
       faultOf (step s) = some .unwrittenRead) := by decide

/-- The two ends of MEM_SIZE's range. -/
theorem witness_InvHoldsAfterReset : Params.wf { Params.reference with memSize := 1 } = true ∧
    Params.wf { Params.reference with memSize := 2 ^ 31 } = true := by decide

theorem witness_StepKeepsInv : (State.reset.withFetchWord 32 0x4).Inv = true ∧
    ∃ t, step (State.reset.withFetchWord 32 0x4) = .next t := ⟨by decide, _, rfl⟩

/-- A host turn that issues a command, one while a command is pending, the unit idle and with a command, and a reset. -/
theorem witness_OnlyTheseStepsChangeTheBlock :
    (let s := withHostProgram [opWr .CMD 0x4] State.reset
     nextAgent s = .host ∧ ∃ t, step s = .next t) ∧
    (let s := { withHostProgram [opRd .STATUS 0] (testState (testRegs 0 0 0 0 0) []) with sched := [.host] }
     nextAgent s = .host ∧ statusBUSY s.status = true ∧ ∃ t, step s = .next t) ∧
    (let s := { State.reset with sched := [.unit] }
     nextAgent s = .unit ∧ s.pending = none ∧ ∃ t, step s = .next t) ∧
    (let s := State.reset.withFetchWord 32 0x4
     nextAgent s = .unit ∧ s.pending ≠ none ∧ ∃ t, step s = .next t) ∧
    (let s := { State.reset with sched := [.reset] }
     nextAgent s = .reset ∧ ∃ t, step s = .next t) :=
  ⟨⟨by decide, _, rfl⟩, ⟨by decide, by decide, _, rfl⟩, ⟨by decide, by decide, _, rfl⟩, ⟨by decide, by decide, _, rfl⟩,
    ⟨by decide, _, rfl⟩⟩

/-- A command that completes and one that raises; and ENC.G with bytes outside both regions it writes. -/
theorem witness_CommandEndsInCompleteOrRaise :
    (∃ t, exec .hashc (testState (testRegs 0 3 65504 0 0) abcMem) = .next t ∧ t.status = 0x2) ∧
    (∃ t, exec .hashc (testState (testRegs 0 3 65505 0 0) abcMem) = .next t ∧ t.status = 0x706) :=
  ⟨⟨_, eq_next_of_isNext State.reset (by decide +kernel), by decide +kernel⟩,
    ⟨_, eq_next_of_isNext State.reset (by decide), by decide⟩⟩

theorem witness_CommandFrame :
    let r := testRegs 0 3 0x200 0x100 0
    let s := withAnswers [.returns keyK, .returns ivI] (testState r abcMem)
    s.pending = some ⟨0, r⟩ ∧ (∃ t, exec .encG s = .next t) ∧
    (0x1FF < r.dst.toNat ∨ r.dst.toNat + resultLength .encG r ≤ 0x1FF) ∧ (0x1FF < r.key.toNat ∨ r.key.toNat + 32 ≤ 0x1FF) ∧
    (0x213 < r.dst.toNat ∨ r.dst.toNat + resultLength .encG r ≤ 0x213) ∧ Instr.hasha ≠ .enc ∧ Instr.hasha ≠ .encG :=
  ⟨by decide, ⟨_, rfl⟩, by decide, by decide, by decide, by decide, by decide⟩

/-- A command that goes on, and one that reads an unwritten byte. -/
theorem witness_CommandsIgnoreLiveRegisters :
    statusBUSY State.reset.status = false ∧ regAccess .A_SIZE = .readWrite ∧
    (∃ t, exec .hashb (testState (testRegs 0 3 0x200 0 0) abcMem) = .next t) ∧
    exec .hashb (testState (testRegs 0 4 0x200 0 0) abcMem) = .fault .unwrittenRead :=
  ⟨by decide, by decide, ⟨_, rfl⟩, rfl⟩

/-- Two states that differ in MEM outside the input, and in the live registers. -/
theorem witness_ResultsDependOnlyOnInputs :
    let r := testRegs 0 3 0x200 0x100 0
    let s1 := withAnswers [.returns keyK, .returns ivI] (testState r abcMem)
    let s2 := { s1 with mem := abcMem ++ [(9, 0x55)], regs := r }
    s1.pending = some ⟨0, r⟩ ∧ s2.pending = some ⟨0, r⟩ ∧ s1.params = s2.params ∧ s1.entropy = s2.entropy ∧
    (∀ x, isInput .encG r x → readByte s1.mem x = readByte s2.mem x) ∧ (∃ t, exec .encG s1 = .next t ∧ t.status = 0x2) ∧
    0x200 < r.dst.toNat + resultLength .encG r ∧ 0x11F < r.key.toNat + 32 := by
  refine ⟨by decide, by decide, by decide, by decide, fun x h => ?_,
    ⟨_, eq_next_of_isNext State.reset (by decide +kernel), by decide +kernel⟩, by decide, by decide⟩
  have hx : x < 3 := h.2
  interval_cases x <;> rfl

/-- The error of the lowest and of the highest code. -/
theorem witness_CompleteAndRaiseEndTheCommand :
    (ErrorCode.invalidInput, 1) ∈ [(ErrorCode.invalidInput, 1), (.keyError, 2), (.encodingError, 3), (.cryptoError, 4),
      (.hashError, 5), (.illegalCommand, 6), (.addressError, 7)] ∧
    (ErrorCode.addressError, 7) ∈ [(ErrorCode.invalidInput, 1), (.keyError, 2), (.encodingError, 3), (.cryptoError, 4),
      (.hashError, 5), (.illegalCommand, 6), (.addressError, 7)] := by decide

/-- The first and the last index of each statement over the bytes of one buffer. -/
theorem witness_StreamBytesInOrder : 0 < 8 ∧ 7 < 8 := by decide
theorem witness_BufferBStartsAsMagic : 0 < 16 ∧ 15 < 16 := by decide
theorem witness_FinalPassB : 0 < 16 ∧ 15 < 16 := by decide
theorem witness_AbsorbCFoldsByXor : 0 < 32 ∧ 31 < 32 := by decide
theorem witness_ForwardIsPrefixXor : 0 < (hexBytes 32 1).length ∧ 31 < (hexBytes 32 1).length := by decide
theorem witness_BackwardIsSuffixXor : 0 < (hexBytes 32 1).length ∧ 31 < (hexBytes 32 1).length := by decide

theorem witness_AbsorbByChunks : (hexBytes 8 0).length = 8 ∧ (hexBytes 1 0).length = 1 ∧ (hexBytes 7 0).length = 7 ∧ 7 < 8 := by
  decide

theorem witness_SqueezeByBlocks : 0 < (1 + 7) / 8 ∧ 0 < (8 + 7) / 8 ∧ 1 < (9 + 7) / 8 ∧ 7 < 8 := by decide

theorem witness_HashATruncatesToSize : 8 ≤ 8 ∧ 8 ≤ 9 := by decide

theorem witness_AbsorbBFoldsEachByte : (initB 0xdeadbeef).length = 16 ∧ 0 ≠ (hexBytes 17 0).length % 16 := by decide

theorem witness_WordStageB : (initB 0xdeadbeef).length = 16 ∧ 3 < 4 := by decide

theorem witness_RoundsRunFourPassesInOrder : (List.replicate 32 (0 : Byte)).length = 32 ∧ 31 < 32 := by decide

theorem witness_RoundIsInjective :
    (absorbC [0x61] 0 (List.replicate 32 0)).length = 32 ∧
    (roundC (absorbC [0x61] 0 (List.replicate 32 0)) (streamInit .splitMix64 0)).1 =
      (roundC ([0x61] ++ List.replicate 31 0) (streamInit .splitMix64 0)).1 := ⟨by decide, rfl⟩

theorem witness_CtrCombinesCounterBlocks : ivI.length = 16 ∧ 16 < (hexBytes 17 0).length ∧ 15 < 16 := by decide

theorem witness_EntropyDrawAnswers :
    (EntropySource.mk [.fails] 0).answers = .fails :: [] ∧ (EntropySource.mk [.returns ivI] 0).answers = .returns ivI :: [] ∧
    ivI.length = 16 := by decide

/-- Both regions end at the end of MEM; one byte more on either side; an input byte unwritten. -/
theorem witness_HashaRule :
    let r := { testRegs 65533 3 65531 0 0 with aSize := 5 }
    let r1 := { testRegs 65533 4 65531 0 0 with aSize := 5 }
    let r2 := { testRegs 65533 3 65532 0 0 with aSize := 5 }
    let s := testState r (cellsAt 65533 [0x61, 0x62, 0x63])
    s.pending = some ⟨0, r⟩ ∧ r.src.toNat + r.srcLen.toNat ≤ s.params.memSize ∧ r.dst.toNat + r.aSize.toNat ≤ s.params.memSize ∧
    readBytes s.mem r.src.toNat r.srcLen.toNat = some [0x61, 0x62, 0x63] ∧ readBytes [] r.src.toNat r.srcLen.toNat = none ∧
    ¬(r1.src.toNat + r1.srcLen.toNat ≤ s.params.memSize) ∧ ¬(r2.dst.toNat + r2.aSize.toNat ≤ s.params.memSize) := by decide

theorem witness_HashbRule :
    let r := testRegs 65533 3 65520 0 0
    let s := testState r (cellsAt 65533 [0x61, 0x62, 0x63])
    s.pending = some ⟨0, r⟩ ∧ r.src.toNat + r.srcLen.toNat ≤ s.params.memSize ∧ r.dst.toNat + 16 ≤ s.params.memSize ∧
    readBytes s.mem r.src.toNat r.srcLen.toNat = some [0x61, 0x62, 0x63] ∧ readBytes [] r.src.toNat r.srcLen.toNat = none ∧
    ¬((testRegs 65533 3 65521 0 0).dst.toNat + 16 ≤ s.params.memSize) := by decide

theorem witness_HashcRule :
    let r := testRegs 65533 3 65504 0 0
    let s := testState r (cellsAt 65533 [0x61, 0x62, 0x63])
    s.pending = some ⟨0, r⟩ ∧ r.src.toNat + r.srcLen.toNat ≤ s.params.memSize ∧ r.dst.toNat + 32 ≤ s.params.memSize ∧
    readBytes s.mem r.src.toNat r.srcLen.toNat = some [0x61, 0x62, 0x63] ∧ readBytes [] r.src.toNat r.srcLen.toNat = none ∧
    ¬((testRegs 65533 3 65505 0 0).dst.toNat + 32 ≤ s.params.memSize) := by decide

/-- The regions of the snapshot need not even be in MEM; and a hash command that goes on. -/
theorem witness_RstaRstbOnlyComplete :
    (testState (testRegs 65535 9 65535 0 0) abcMem).pending = some ⟨0, testRegs 65535 9 65535 0 0⟩ ∧
    (∃ u, exec .hasha { testState (testRegs 65535 9 65535 0 0) abcMem with pending := some ⟨0, testRegs 0 3 0x200 0 0⟩ } = .next u) ∧
    (∃ u, exec .hashb { testState (testRegs 65535 9 65535 0 0) abcMem with pending := some ⟨0, testRegs 0 3 0x200 0 0⟩ } = .next u) :=
  ⟨rfl, ⟨_, rfl⟩, ⟨_, rfl⟩⟩

theorem witness_RstcOnlyCompletes :
    (testState (testRegs 65535 9 65535 0 0) abcMem).pending = some ⟨0, testRegs 65535 9 65535 0 0⟩ ∧
    (∃ u, exec .hashc { testState (testRegs 65535 9 65535 0 0) abcMem with pending := some ⟨0, testRegs 0 3 0x200 0 0⟩ } = .next u) :=
  ⟨rfl, ⟨_, rfl⟩⟩

/-- ENC: KEY_LEN 31, 32 and 33; the envelope at the end of MEM and one byte past it; the key unwritten; a draw that fails and
one that returns. ENC.G: the same regions, both draws, and a key region that the envelope overlaps but for one byte. -/
theorem witness_EncRule :
    let r := testRegs 0 3 65517 0x100 32
    let s := testState r encMem
    let inside := fun (r : Regs) => r.src.toNat + r.srcLen.toNat ≤ s.params.memSize ∧ r.key.toNat + 32 ≤ s.params.memSize ∧
      r.dst.toNat + 16 + r.srcLen.toNat ≤ s.params.memSize
    s.pending = some ⟨0, r⟩ ∧ r.keyLen = 32 ∧ (testRegs 0 3 65517 0x100 31).keyLen ≠ 32 ∧
    (testRegs 0 3 65517 0x100 33).keyLen ≠ 32 ∧ inside r ∧
    ¬inside (testRegs 0 3 65518 0x100 32) ∧ ¬inside (testRegs 0 3 0x200 65505 32) ∧
    readBytes s.mem r.src.toNat r.srcLen.toNat = some [0x61, 0x62, 0x63] ∧ readBytes s.mem r.key.toNat 32 = some keyK ∧
    readBytes abcMem r.key.toNat 32 = none ∧ readBytes [] r.src.toNat r.srcLen.toNat = none ∧
    entropyDraw 16 ⟨[.fails], 0⟩ = (none, ⟨[], 1⟩) ∧ entropyDraw 16 ⟨[.returns ivI], 0⟩ = (some ivI, ⟨[], 1⟩) ∧
    entropyDraw 32 ⟨[.fails], 0⟩ = (none, ⟨[], 1⟩) ∧
    entropyDraw 32 ⟨[.returns keyK, .fails], 0⟩ = (some keyK, ⟨[.fails], 1⟩) ∧
    entropyDraw 16 ⟨[.fails], 1⟩ = (none, ⟨[], 2⟩) ∧
    entropyDraw 32 ⟨[.returns keyK, .returns ivI], 0⟩ = (some keyK, ⟨[.returns ivI], 1⟩) ∧
    entropyDraw 16 ⟨[.returns ivI], 1⟩ = (some ivI, ⟨[], 2⟩) ∧
    (0x1FF + 0 < 0x200 ∨ 0x200 + (16 + 3) ≤ 0x1FF + 0) ∧ (0x1FF + 20 < 0x200 ∨ 0x200 + (16 + 3) ≤ 0x1FF + 20) := by
  refine ⟨rfl, ?_⟩
  decide +kernel

/-- DEC: KEY_LEN 31, SRC_LEN 15 and 16, a plaintext at the end of MEM and one byte past it, an unwritten key. -/
theorem witness_DecRule :
    let r := testRegs 0 19 65533 0x100 32
    let s := testState r decMem
    let inside := fun (r : Regs) => r.src.toNat + r.srcLen.toNat ≤ s.params.memSize ∧ r.key.toNat + 32 ≤ s.params.memSize ∧
      r.dst.toNat + (r.srcLen.toNat - 16) ≤ s.params.memSize
    s.pending = some ⟨0, r⟩ ∧ r.keyLen = 32 ∧ (testRegs 0 19 65533 0x100 31).keyLen ≠ 32 ∧ inside r ∧
    ¬inside (testRegs 0 19 65534 0x100 32) ∧
    (inside (testRegs 0 15 65536 0x100 32) ∧ (testRegs 0 15 65536 0x100 32).srcLen.toNat < 16) ∧
    (inside (testRegs 0 16 65536 0x100 32) ∧ 16 ≤ (testRegs 0 16 65536 0x100 32).srcLen.toNat) ∧
    (readBytes s.mem r.src.toNat r.srcLen.toNat).isSome = true ∧ readBytes s.mem r.key.toNat 32 = some keyK ∧
    readBytes abcMem r.src.toNat r.srcLen.toNat = none ∧ readBytes abcMem r.key.toNat 32 = none := by
  refine ⟨rfl, ?_⟩
  decide +kernel

/-- STRETCH: ITER 0, OSIZE 0, both 1; the result at the end of MEM and one byte past it; an unwritten input. -/
theorem witness_StretchRule :
    let r := { testRegs 0 3 65535 0 0 with iter := 1, osize := 1 }
    let s := testState r abcMem
    s.pending = some ⟨0, r⟩ ∧ r.iter ≠ 0 ∧ r.osize ≠ 0 ∧ ({ r with iter := 0 } : Regs).iter = 0 ∧
    ({ r with osize := 0 } : Regs).osize = 0 ∧
    (r.src.toNat + r.srcLen.toNat ≤ s.params.memSize ∧ r.dst.toNat + r.osize.toNat ≤ s.params.memSize) ∧
    ¬(({ r with dst := 65536 } : Regs).dst.toNat + r.osize.toNat ≤ s.params.memSize) ∧
    readBytes s.mem r.src.toNat r.srcLen.toNat = some [0x61, 0x62, 0x63] ∧ readBytes [] r.src.toNat r.srcLen.toNat = none := by
  decide

/-- DERIVE: a password and a salt of one byte, and of none; the result at the end of MEM and one byte past it; either unwritten. -/
theorem witness_DeriveRule :
    let r := testRegs 0 1 65504 2 1
    let s := testState r abcMem
    s.pending = some ⟨0, r⟩ ∧ r.srcLen ≠ 0 ∧ r.auxLen ≠ 0 ∧ (testRegs 0 0 65504 2 1).srcLen = 0 ∧
    (testRegs 0 1 65504 2 0).auxLen = 0 ∧
    (r.src.toNat + r.srcLen.toNat ≤ s.params.memSize ∧ r.aux.toNat + r.auxLen.toNat ≤ s.params.memSize ∧
      r.dst.toNat + 32 ≤ s.params.memSize) ∧
    ¬((testRegs 0 1 65505 2 1).dst.toNat + 32 ≤ s.params.memSize) ∧
    readBytes s.mem r.src.toNat r.srcLen.toNat = some [0x61] ∧ readBytes s.mem r.aux.toNat r.auxLen.toNat = some [0x63] ∧
    readBytes [] r.src.toNat r.srcLen.toNat = none ∧ readBytes (cellsAt 0 [0x61]) r.aux.toNat r.auxLen.toNat = none := by
  decide

theorem witness_HashLengthIsOutputSize :
    let s := testState (testRegs 0 3 0x200 0 0) abcMem
    s.pending = some ⟨0, testRegs 0 3 0x200 0 0⟩ ∧ s.regs.aSize = (testRegs 0 3 0x200 0 0).aSize ∧
    (∃ t, exec .hasha s = .next t ∧ t.status = 0x2) ∧ (∃ t, exec .hashb s = .next t ∧ t.status = 0x2) ∧
    (∃ t, exec .hashc s = .next t ∧ t.status = 0x2) :=
  ⟨rfl, rfl, ⟨_, rfl, rfl⟩, ⟨_, rfl, rfl⟩, ⟨_, rfl, rfl⟩⟩

/-- V-E2 and then V-E7, under ENC; and V-E11's, under ENC.G, with the key region right below the envelope. -/
theorem witness_DecryptsWhatWasEncrypted :
    let r := testRegs 0 3 0x120 0x100 32
    let r2 := testRegs 0x120 19 0 0x100 32
    let s := withAnswers [.returns ivI] (testState r encMem)
    let sG := withAnswers [.returns keyK, .returns ivI] (testState r abcMem)
    let t := nextOr s (exec .enc s)
    let tG := nextOr sG (exec .encG sG)
    (exec .enc s = .next t ∧ t.status = 0x2) ∧ (exec .encG sG = .next tG ∧ tG.status = 0x2) ∧
    s.pending = some ⟨0, r⟩ ∧ sG.pending = some ⟨0, r⟩ ∧
    readBytes s.mem r.src.toNat r.srcLen.toNat = some [0x61, 0x62, 0x63] ∧
    readBytes sG.mem r.src.toNat r.srcLen.toNat = some [0x61, 0x62, 0x63] ∧
    readBytes s.mem r.key.toNat 32 = some keyK ∧ readBytes tG.mem r.key.toNat 32 = some keyK ∧
    r.key.toNat + 32 ≤ r.dst.toNat ∧ r2.keyLen = 32 ∧ r2.srcLen.toNat = 16 + r.srcLen.toNat ∧
    r2.src.toNat + r2.srcLen.toNat ≤ s.params.memSize ∧ r2.key.toNat + 32 ≤ s.params.memSize ∧
    r2.dst.toNat + r.srcLen.toNat ≤ s.params.memSize ∧
    (testState r2 t.mem).params = s.params ∧ (testState r2 t.mem).pending = some ⟨0, r2⟩ ∧
    (readBytes t.mem r2.src.toNat r2.srcLen.toNat = readBytes t.mem r.dst.toNat (16 + r.srcLen.toNat)) ∧
    readBytes t.mem r2.key.toNat 32 = some keyK := by
  refine ⟨⟨eq_next_of_isNext _ (by decide +kernel), by decide +kernel⟩,
    ⟨eq_next_of_isNext _ (by decide +kernel), by decide +kernel⟩, rfl, rfl, ?_⟩
  decide +kernel

end Sys2Proof.Machine
end

/-! The byte stream and SplitMix64 (00_scope.md R14, R15). -/

namespace Sys2Proof.Machine

/-- An empty stream draws (R14): it goes on as the stream that holds the draw's eight bytes, least significant first. -/
theorem nextByte_empty (g : Gen) : nextByte ⟨[], g⟩ = nextByte ⟨le64 (next64 g).1, (next64 g).2⟩ := by
  have hbyte : (next64 g).1.extractLsb' 0 8 = BitVec.ofNat 8 (next64 g).1.toNat := by
    simpa using extractLsb'_byte (next64 g).1 0
  simp only [nextByte, le64, leBytes, hbyte]

theorem nthByte_empty (g : Gen) (j : Nat) :
    nthByte ⟨[], g⟩ j = nthByte ⟨le64 (next64 g).1, (next64 g).2⟩ j := by
  cases j with
  | zero => exact congrArg Prod.fst (nextByte_empty g)
  | succ j => rw [nthByte_succ, nthByte_succ, nextByte_empty]

/-- Settles O26: 8k bytes of a fresh stream are k whole draws, and the next eight are those of draw k. -/
theorem streamBytesInOrder : Obligations.StreamBytesInOrder := by
  intro c seed k j hj
  calc nthByte (streamInit c seed) (8 * k + j)
      = nthByte ⟨[], genAfter k (prngInit c seed)⟩ j := by rw [nthByte_add, streamInit, streamAfter_blocks]
    _ = nthByte ⟨le64 (nthDraw c seed k), (next64 (genAfter k (prngInit c seed))).2⟩ j := nthByte_empty _ j
    _ = BitVec.ofNat 8 ((nthDraw c seed k).toNat / 256 ^ j) := nthByte_rest 8 _ _ j hj
    _ = (nthDraw c seed k).extractLsb' (8 * j) 8 := (extractLsb'_byte _ j).symm

/-- R15's first three outputs from seed 0. -/
theorem nthDraw_splitMix64_zero :
    nthDraw .splitMix64 0 0 = 0xe220a8397b1dcdaf ∧ nthDraw .splitMix64 0 1 = 0x6e789e6aa1b965f4 ∧
    nthDraw .splitMix64 0 2 = 0x06c45d188009454f := by
  decide

/-- Settles O25: initialisation and the draw are R15's by definition; the three outputs are evaluated. -/
theorem splitMix64Draws : Obligations.SplitMix64Draws :=
  ⟨fun _ => rfl, fun _ => rfl, nthDraw_splitMix64_zero⟩

end Sys2Proof.Machine

/-! The register map (10_state.md R23, R24): what an access at any offset does. -/

namespace Sys2Proof.Machine

theorem regAccessLegal_of_aligned {off : BitVec 8} (h : off.toNat % 4 = 0) : regAccessLegal off 32 = true := by
  simp [regAccessLegal, h]

theorem regAccessLegal_eq_false {off : BitVec 8} {width : Nat} (h : off.toNat % 4 ≠ 0 ∨ width ≠ 32) :
    regAccessLegal off width = false := by
  rcases h with h | h <;> simp [regAccessLegal, h]

theorem hostOp_illegalRegAccess {off : BitVec 8} {width : Nat} (h : off.toNat % 4 ≠ 0 ∨ width ≠ 32) (s : State)
    (v : Nat) (x : Word) :
    hostOp (.readReg off width v) s = .fault .hostProtocol ∧ hostOp (.writeReg off width x) s = .fault .hostProtocol := by
  simp [hostOp, regAccessLegal_eq_false h]

theorem hostOp_readReg_aligned {off : BitVec 8} (h : off.toNat % 4 = 0) (v : Nat) (s : State) :
    hostOp (.readReg off 32 v) s = .next (hostAssign v (.word (readOffset s off)) s) := by
  simp [hostOp, regAccessLegal_of_aligned h]

theorem hostOp_writeReg_aligned {off : BitVec 8} (h : off.toNat % 4 = 0) (x : Word) (s : State) :
    hostOp (.writeReg off 32 x) s = writeOffset off x s := by
  simp [hostOp, regAccessLegal_of_aligned h]

theorem regOffset_lt (r : Reg) : (regOffset r).toNat < 0x60 := by cases r <;> decide

theorem regAt_unmapped {off : BitVec 8} (h : 0x60 ≤ off.toNat) : regAt off = none := by
  refine Option.eq_none_iff_forall_ne_some.mpr fun r hr => ?_
  have := regOffset_lt r
  rw [regOffset_of_regAt hr] at this
  omega

theorem readOffset_unmapped {off : BitVec 8} (h : 0x60 ≤ off.toNat) (s : State) : readOffset s off = 0 := by
  simp [readOffset, regAt_unmapped h]

theorem writeOffset_unmapped {off : BitVec 8} (h : 0x60 ≤ off.toNat) (x : Word) (s : State) :
    writeOffset off x s = .next s := by
  simp [writeOffset, regAt_unmapped h]

theorem writeReg_readOnly {r : Reg} (hr : regAccess r = .readOnly) (x : Word) (s : State) :
    writeReg r x s = .next s := by
  have hne : r ≠ .CMD := by rintro rfl; cases hr
  rw [writeReg_of_ne_CMD x s hne, writeRegs_readOnly x s.regs hr]

/-- Only CMD, at offset 0, has a write that reaches beyond the live registers. -/
theorem writeOffset_of_ne_zero {off : BitVec 8} (h : off ≠ 0x00) (x : Word) (s : State) :
    ∃ live, writeOffset off x s = .next { s with regs := live } := by
  cases hr : regAt off with
  | none => exact ⟨s.regs, by simp [writeOffset, hr]⟩
  | some r =>
    have hne : r ≠ .CMD := by rintro rfl; exact h (regOffset_of_regAt hr).symm
    exact ⟨writeRegs r x s.regs, by simp [writeOffset, hr, writeReg_of_ne_CMD x s hne]⟩

/-- Settles O6, clause by clause: legality first, then the register map at the offset. -/
theorem registerAccessRules : Obligations.RegisterAccessRules := by
  intro s
  refine ⟨fun off width v x h => hostOp_illegalRegAccess h s v x, fun off x hal hun => ?_, fun r x hr => ?_,
    readOffset_offset s .CMD, fun off v hal => ⟨_, hostOp_readReg_aligned hal v s, rfl, rfl⟩, fun off x hal hne => ?_⟩
  · exact ⟨readOffset_unmapped hun s, (hostOp_writeReg_aligned hal x s).trans (writeOffset_unmapped hun x s)⟩
  · exact (hostOp_writeReg r x s).trans (writeReg_readOnly hr x s)
  · obtain ⟨live, hlive⟩ := writeOffset_of_ne_zero hne x s
    exact ⟨_, (hostOp_writeReg_aligned hal x s).trans hlive, rfl⟩

end Sys2Proof.Machine

/-! Commands and the live registers (10_state.md R22): every command commutes with a change of them. -/

namespace Sys2Proof.Machine

/-- An outcome with the live registers of its next state, if it has one, replaced. -/
def Out.withLive (live : Regs) : Out → Out
  | .next t => .next { t with regs := live }
  | .fault f => .fault f
  | .refused r => .refused r

section

variable {s : State} {live : Regs}

theorem withCommand_withLive {rule rule' : Regs → Out} (h : ∀ r, rule' r = Out.withLive live (rule r)) :
    withCommand { s with regs := live } rule' = Out.withLive live (withCommand s rule) := by
  cases hc : s.pending with
  | none => simp [withCommand, hc, Out.withLive]
  | some c => simp [withCommand, hc, h]

theorem memRead_withLive {a n : Nat} {go go' : Bytes → Out} (h : ∀ b, go' b = Out.withLive live (go b)) :
    memRead { s with regs := live } a n go' = Out.withLive live (memRead s a n go) := by
  cases hb : readBytes s.mem a n with
  | none => simp [memRead, hb, Out.withLive]
  | some b => simp [memRead, hb, h]

theorem ite_withLive {p : Prop} [Decidable p] {yes no yes' no' : Out} (hyes : yes' = Out.withLive live yes)
    (hno : no' = Out.withLive live no) :
    (if p then yes' else no') = Out.withLive live (if p then yes else no) := by
  rw [hyes, hno, apply_ite (Out.withLive live)]

theorem encFinish_withLive (r : Regs) (key data : Bytes) :
    encFinish r key data { s with regs := live } = { encFinish r key data s with regs := live } := by
  simp only [encFinish]
  cases (entropyDraw ivLength s.entropy).1 <;> rfl

theorem encGFinish_withLive (r : Regs) (data : Bytes) :
    encGFinish r data { s with regs := live } = { encGFinish r data s with regs := live } := by
  simp only [encGFinish]
  cases (entropyDraw keyLength s.entropy).1 with
  | none => rfl
  | some k => cases (entropyDraw ivLength (entropyDraw keyLength s.entropy).2).1 <;> rfl

/-- The live registers take no part in any command (R22). Each proof term has the shape of its command's rule: the error
checks, the reads, and then an end that is the same state but for the live registers. -/
theorem exec_withLive (i : Instr) : exec i { s with regs := live } = Out.withLive live (exec i s) := by
  unfold exec
  cases i with
  | hasha | hashb | hashc =>
    exact withCommand_withLive fun _ => ite_withLive rfl <| ite_withLive rfl <| memRead_withLive fun _ => rfl
  | rsta | rstb | rstc =>
    exact withCommand_withLive fun _ => rfl
  | enc =>
    exact withCommand_withLive fun r => ite_withLive rfl <| ite_withLive rfl <| ite_withLive rfl <| ite_withLive rfl <|
      memRead_withLive fun data => memRead_withLive fun key => congrArg _ (encFinish_withLive r key data)
  | encG =>
    exact withCommand_withLive fun r => ite_withLive rfl <| ite_withLive rfl <| ite_withLive rfl <|
      memRead_withLive fun data => congrArg _ (encGFinish_withLive r data)
  | dec =>
    exact withCommand_withLive fun _ => ite_withLive rfl <| ite_withLive rfl <| ite_withLive rfl <| ite_withLive rfl <|
      ite_withLive rfl <| memRead_withLive fun _ => memRead_withLive fun _ => rfl
  | stretch =>
    exact withCommand_withLive fun _ => ite_withLive rfl <| ite_withLive rfl <| ite_withLive rfl <|
      memRead_withLive fun _ => rfl
  | derive =>
    exact withCommand_withLive fun _ => ite_withLive rfl <| ite_withLive rfl <| ite_withLive rfl <| ite_withLive rfl <|
      memRead_withLive fun _ => memRead_withLive fun _ => rfl

end

theorem hostOp_writeCmd_idle {s : State} (h : statusBUSY s.status = false) (w : Word) :
    hostOp (.writeReg 0x00 32 w) s = .next (accept w s) := by
  calc hostOp (.writeReg (regOffset .CMD) 32 w) s
      = writeReg .CMD w s := hostOp_writeReg .CMD w s
    _ = .next (accept w s) := by simp [writeReg, h]

theorem hostOp_writeReg_readWrite {r : Reg} (hr : regAccess r = .readWrite) (v : Word) (s : State) :
    hostOp (.writeReg (regOffset r) 32 v) s = .next { s with regs := writeRegs r v s.regs } := by
  have hne : r ≠ .CMD := by rintro rfl; cases hr
  rw [hostOp_writeReg, writeReg_of_ne_CMD v s hne]

/-- Settles O23: acceptance and a register write are their operations; the rest is that every command commutes with a
change of the live registers. -/
theorem commandsIgnoreLiveRegisters : Obligations.CommandsIgnoreLiveRegisters := by
  intro i s live
  refine ⟨fun w hidle => ⟨_, hostOp_writeCmd_idle hidle w, accept_pending s w⟩,
    fun r v hr => ⟨_, hostOp_writeReg_readWrite hr v s, readReg_writeRegs v s hr, rfl⟩, fun t ht => ?_, fun f hf => ?_⟩
  · rw [exec_withLive, ht]; rfl
  · rw [exec_withLive, hf]; rfl

end Sys2Proof.Machine

/-! The illegal command words (30_encoding.md R74): which they are, and what the block does with one. -/

namespace Sys2Proof

theorem decodeOp_opcodeReserved {op : Nat} (h : 0x0B ≤ op) (g : BitVec 1) :
    decodeOp op g = .illegal .opcodeReserved := by
  obtain ⟨n, rfl⟩ := Nat.exists_eq_add_of_le' h
  rfl

theorem decodeOp_legal {op : Nat} (hlo : 0x01 ≤ op) (hhi : op ≤ 0x0A) (g : BitVec 1) :
    ∃ i, decodeOp op g = .legal i := by
  rcases BitVec.eq_zero_or_eq_one g with rfl | rfl <;> interval_cases op <;> exact ⟨_, rfl⟩

/-- The opcode map of R71 has no command at OP 0x00 and above 0x0A. -/
theorem decodeOp_illegal_iff (op : Nat) (g : BitVec 1) :
    (∃ why, decodeOp op g = .illegal why) ↔ op = 0x00 ∨ 0x0B ≤ op := by
  constructor
  · rintro ⟨why, hwhy⟩
    by_contra hop
    obtain ⟨i, hi⟩ := decodeOp_legal (op := op) (by omega) (by omega) g
    rw [hi] at hwhy
    cases hwhy
  · rintro (rfl | hop)
    · exact ⟨.opcodeZero, rfl⟩
    · exact ⟨.opcodeReserved, decodeOp_opcodeReserved hop g⟩

/-- The grounds of R74 on the fields of the word, in the order `decode` looks at them. -/
theorem decode_illegal_iff_fields (w : Word) :
    (∃ why, decode w = .illegal why) ↔
      rsvField w ≠ 0 ∨ (gField w = 1 ∧ opField w ≠ 0x07) ∨ (opField w).toNat = 0x00 ∨ 0x0B ≤ (opField w).toNat := by
  by_cases hrsv : rsvField w = 0
  · by_cases hg : gField w = 1 ∧ opField w ≠ 0x07
    · have hdec : decode w = .illegal .generateFlag := by rw [decode, if_neg (not_not_intro hrsv), if_pos hg]
      exact iff_of_true ⟨_, hdec⟩ (.inr (.inl hg))
    · have hdec : decode w = decodeOp (opField w).toNat (gField w) := by
        rw [decode, if_neg (not_not_intro hrsv), if_neg hg]
      rw [hdec, decodeOp_illegal_iff]
      exact ⟨fun h => .inr (.inr h), fun h => (h.resolve_left (not_not_intro hrsv)).resolve_left hg⟩
  · have hdec : decode w = .illegal .reservedBits := by rw [decode, if_pos hrsv]
    exact iff_of_true ⟨_, hdec⟩ (.inl hrsv)

/-- The same grounds on the word as a number (R70, R74). -/
theorem decode_illegal_iff (w : Word) :
    (∃ why, decode w = .illegal why) ↔
      (w.toNat % 256 = 0x00 ∨ 0x0B ≤ w.toNat % 256 ∨ (w.toNat / 256 % 2 = 1 ∧ w.toNat % 256 ≠ 0x07) ∨
        w.toNat / 512 ≠ 0) := by
  have hop : opField w = 0x07 ↔ w.toNat % 256 = 0x07 := opField_eq w 0x07
  rw [decode_illegal_iff_fields, Ne, Ne, rsvField_eq_zero, gField_eq_one, hop, opField_toNat]
  tauto

end Sys2Proof

namespace Sys2Proof.Machine

theorem unitTurn_illegal {s : State} {c : Snapshot} {why : Illegal} (hc : s.pending = some c)
    (hw : decode c.word = .illegal why) : unitTurn s = .next (raiseError .illegalCommand s) := by
  simp only [unitTurn, hc, hw]

/-- Settles O3: the grounds are `decode`'s branches, acceptance does not decode, and the unit's turn is the raise. -/
theorem illegalWordsRaiseIllegalCommand : Obligations.IllegalWordsRaiseIllegalCommand := by
  refine ⟨decode_illegal_iff, fun w s hidle => ?_, fun s c why hc hw => ?_⟩
  · exact ⟨accept w s, hostOp_writeCmd_idle hidle w, accept_pending s w, accept_status s w⟩
  · exact ⟨raiseError .illegalCommand s, unitTurn_illegal hc hw, raiseError_endsInError s .illegalCommand,
      raiseError_mem s _, raiseError_entropy s _⟩

end Sys2Proof.Machine

/-! How a command begins and ends: acceptance (30_encoding.md R80), `complete` (R84) and `raise` (60_exceptions.md R201). -/

namespace Sys2Proof.Machine

theorem accept_sameAround (s : State) (w : Word) : sameAround s (accept w s) :=
  ⟨accept_params s w, accept_regs s w, accept_host s w, accept_sched s w⟩

/-- Settles O4: the write is the operation `accept`, which sets the snapshot and STATUS alone. -/
theorem commandWriteIsAccepted : Obligations.CommandWriteIsAccepted := by
  intro s w hidle
  exact ⟨accept w s, hostOp_writeCmd_idle hidle w, accept_pending s w, accept_status s w, accept_mem s w,
    accept_resLen s w, accept_entropy s w, accept_sameAround s w⟩

/-- The fields of STATUS after `raise e` (R26, R201). -/
theorem statusError_fields (e : ErrorCode) :
    statusBUSY (statusError e) = false ∧ statusDONE (statusError e) = true ∧ statusERR (statusError e) = true ∧
      (statusERRCODE (statusError e)).toNat = errorNumber e := by
  cases e <;> decide

/-- The codes of R202. -/
theorem errorNumber_table : ∀ p ∈ [(ErrorCode.invalidInput, 1), (.keyError, 2), (.encodingError, 3), (.cryptoError, 4),
    (.hashError, 5), (.illegalCommand, 6), (.addressError, 7)], errorNumber p.1 = p.2 := by decide

/-- Settles O19: both ends are their operations on the state; c is the code R202 gives e. -/
theorem completeAndRaiseEndTheCommand : Obligations.CompleteAndRaiseEndTheCommand := by
  refine fun s => ⟨fun n => ⟨complete_endsComplete s n, complete_mem s n, complete_entropy s n⟩, fun e c hec => ?_⟩
  obtain rfl : errorNumber e = c := errorNumber_table (e, c) hec
  exact ⟨raiseError_endsInError s e, raiseError_mem s e, raiseError_entropy s e, statusError_fields e⟩

end Sys2Proof.Machine

/-! Construction A (40_hash_a.md R100 to R103): absorb chunk by chunk, squeeze block by block, truncate. -/

namespace Sys2Proof.Machine

theorem chunkCount_append_chunk {chunk rest : Bytes}
    (h : chunk.length = 8 ∨ (0 < chunk.length ∧ chunk.length < 8 ∧ rest = [])) :
    chunkCount (chunk ++ rest).length = chunkCount rest.length + 1 := by
  simp only [chunkCount, aChunk, List.length_append]
  rcases h with h | ⟨hpos, hlt, rfl⟩
  · omega
  · simp only [List.length_nil]; omega

/-- The first chunk of R100 is taken off whole: 8 bytes of it, or all there are. -/
theorem take_drop_chunk {chunk rest : Bytes}
    (h : chunk.length = 8 ∨ (0 < chunk.length ∧ chunk.length < 8 ∧ rest = [])) :
    (chunk ++ rest).take aChunk = chunk ∧ (chunk ++ rest).drop aChunk = rest := by
  rcases h with h | ⟨-, hlt, rfl⟩
  · exact ⟨List.take_left' h, List.drop_left' h⟩
  · rw [List.append_nil]
    exact ⟨List.take_of_length_le hlt.le, List.drop_of_length_le hlt.le⟩

/-- One pass of R101's loop, on the little-endian value of the first chunk. -/
theorem absorbA_append_chunk (seed : U64) {chunk rest : Bytes}
    (h : chunk.length = 8 ∨ (0 < chunk.length ∧ chunk.length < 8 ∧ rest = [])) :
    absorbA seed (chunk ++ rest) =
      absorbA ((seed + BitVec.ofNat 64 (fromLe chunk)).rotateLeft 13 ^^^ BitVec.ofNat 64 (fromLe chunk)) rest := by
  obtain ⟨htake, hdrop⟩ := take_drop_chunk h
  rw [absorbA, chunkCount_append_chunk h, absorbChunks, htake, hdrop, rotl_eq_rotateLeft _ _ (by decide)]
  rfl

/-- Byte j of a chunk's value is byte j of the chunk, or 0 where it is missing (R100). -/
theorem extractLsb'_fromLe {chunk : Bytes} (h : chunk.length ≤ 8) (j : Nat) :
    (BitVec.ofNat 64 (fromLe chunk)).extractLsb' (8 * j) 8 = chunk.getD j 0 := by
  have hlt : fromLe chunk < 2 ^ 64 := (fromLe_lt chunk).trans_le (Nat.pow_le_pow_right (by decide) h)
  rw [extractLsb'_byte, BitVec.toNat_ofNat, Nat.mod_eq_of_lt hlt, ofNat_fromLe_div]

/-- Settles O27: v is the chunk's little-endian value, and the equation is one pass of the loop. -/
theorem absorbByChunks : Obligations.AbsorbByChunks := by
  refine fun seed => ⟨rfl, fun chunk rest h => ⟨BitVec.ofNat 64 (fromLe chunk), fun j _ => ?_, ?_⟩⟩
  · exact extractLsb'_fromLe (by omega) j
  · exact absorbA_append_chunk seed h

/-- The accumulator after n passes of R102's loop from acc and generator g. -/
def accAfter : Nat → U64 → Gen → U64
  | 0, acc, _ => acc
  | n + 1, acc, g => accAfter n (squeezeMix acc (next64 g).1) (next64 g).2

/-- The last of n + 1 passes mixes in the draw of the generator after n. -/
theorem accAfter_succ (n : Nat) (acc : U64) (g : Gen) :
    accAfter (n + 1) acc g = squeezeMix (accAfter n acc g) (next64 (genAfter n g)).1 := by
  induction n generalizing acc g with
  | zero => rfl
  | succ n ih => rw [accAfter, ih]; rfl

/-- Block k of the loop's output is the accumulator after k + 1 passes. -/
theorem squeezeBlocks_getElem? (n : Nat) (acc : U64) (g : Gen) {k j : Nat} (hk : k < n) (hj : j < 8) :
    (squeezeBlocks n acc g)[8 * k + j]? = some ((accAfter (k + 1) acc g).extractLsb' (8 * j) 8) := by
  induction n generalizing acc g k with
  | zero => omega
  | succ n ih =>
    rw [squeezeBlocks]
    cases k with
    | zero =>
      rw [Nat.mul_zero, Nat.zero_add, List.getElem?_append_left (by rwa [le64_length]), le64_getElem? _ _ hj]
      rfl
    | succ k =>
      rw [List.getElem?_append_right (by rw [le64_length]; omega), le64_length,
        show 8 * (k + 1) + j - 8 = 8 * k + j by omega, ih _ _ (by omega)]
      rfl

/-- Settles O28: the accumulators are those after each pass from `PrngInit(seed)`. -/
theorem squeezeByBlocks : Obligations.SqueezeByBlocks :=
  fun c seed acc _ => ⟨squeezeBlocks_length _ acc _, fun k => accAfter k acc (prngInit c seed), rfl,
    fun k hk => ⟨accAfter_succ k acc _, fun _ hj => squeezeBlocks_getElem? _ acc _ hk hj⟩⟩

/-- A shorter output begins every longer one (R103): both truncate the longer run of blocks. -/
theorem hashA_take (c : PrngChoice) (seed : U64) (data : Bytes) {size longer : Nat} (h : size ≤ longer) :
    (hashA c seed longer data).take size = hashA c seed size data := by
  have hcount : chunkCount size ≤ chunkCount longer := Nat.div_le_div_right (by omega)
  have hfit : size ≤ 8 * chunkCount size := by simp only [chunkCount, aChunk]; omega
  simp only [hashA, squeezeA]
  rw [squeezeBlocks_take _ _ _ _ hcount, List.take_take, List.take_take, Nat.min_eq_left h, Nat.min_eq_left hfit]

/-- Settles O29: the first clause is the definition of `hashA`. -/
theorem hashATruncatesToSize : Obligations.HashATruncatesToSize :=
  fun c seed data size => ⟨rfl, hashA_length c seed size data,
    List.length_eq_zero_iff.mp (hashA_length c seed 0 data), fun _ h => (hashA_take c seed data h).symm⟩

end Sys2Proof.Machine

/-! The hash commands (40_hash_a.md R105, R107, R128): the rule they share, and that a reset command leaves what follows
it as it was. -/

namespace Sys2Proof.Machine

/-- The rule HASHA, HASHB and HASHC share: both regions in MEM, the input read, n bytes of output written at DST. -/
def hashCommand (s : State) (r : Regs) (n : Nat) (out : Bytes → Bytes) : Out :=
  if !inRange s r.src.toNat r.srcLen.toNat then .next (raiseError .addressError s)
  else if !inRange s r.dst.toNat n then .next (raiseError .addressError s)
  else memRead s r.src.toNat r.srcLen.toNat fun data => .next (complete n (memWrite r.dst.toNat (out data) s))

theorem exec_hasha {s : State} {c : Snapshot} (hc : s.pending = some c) :
    exec .hasha s = hashCommand s c.regs c.regs.aSize.toNat
      (hashA s.params.prng (aSeedOf c.regs) c.regs.aSize.toNat) :=
  withCommand_some hc fun r => hashCommand s r r.aSize.toNat (hashA s.params.prng (aSeedOf r) r.aSize.toNat)

section

variable {s : State} {r : Regs} {n : Nat} {out : Bytes → Bytes}

theorem hashCommand_outside
    (h : ¬(r.src.toNat + r.srcLen.toNat ≤ s.params.memSize ∧ r.dst.toNat + n ≤ s.params.memSize)) :
    hashCommand s r n out = .next (raiseError .addressError s) := by
  by_cases hsrc : r.src.toNat + r.srcLen.toNat ≤ s.params.memSize
  · have hdst : ¬r.dst.toNat + n ≤ s.params.memSize := fun hdst => h ⟨hsrc, hdst⟩
    simp [hashCommand, inRange, hsrc, hdst]
  · simp [hashCommand, inRange, hsrc]

theorem hashCommand_inside
    (h : r.src.toNat + r.srcLen.toNat ≤ s.params.memSize ∧ r.dst.toNat + n ≤ s.params.memSize) :
    hashCommand s r n out = memRead s r.src.toNat r.srcLen.toNat
      fun data => .next (complete n (memWrite r.dst.toNat (out data) s)) := by
  simp [hashCommand, inRange, h]

end

/-- R105's example. -/
theorem hashA_example : hashA .splitMix64 0 5 [0x61, 0x62, 0x63] = [0x74, 0x44, 0x15, 0xa1, 0xf3] := by decide

/-- Settles O43: each clause is one branch of the shared rule. -/
theorem hashaRule : Obligations.HashaRule := by
  refine ⟨rfl, fun s c hc => ?_, hashA_example⟩
  intro r out inside
  rw [exec_hasha hc]
  refine ⟨fun hout => ?_, fun hin hread => ?_, fun data hin hread => ?_⟩
  · exact ⟨_, hashCommand_outside hout, raiseError_endsInError s .addressError, raiseError_mem s _,
      raiseError_entropy s _⟩
  · rw [hashCommand_inside hin, memRead_none hread]
  · have hlen : (out data).length = r.aSize.toNat := hashA_length _ _ _ _
    obtain ⟨hends, hholds, hsame⟩ := complete_memWrite s r.aSize.toNat r.dst.toNat (out data) hlen
    exact ⟨_, (hashCommand_inside hin).trans (memRead_some hread _), hends, rfl, hlen, hholds, hsame⟩

/-- No command reads the live STATUS or RES_LEN, and each end of one overwrites both (R84, R201). -/
theorem exec_overwrites_status_resLen (i : Instr) (s : State) (status resLen : Word) :
    exec i { s with status := status, resLen := resLen } = exec i s := by
  cases i <;> rfl

/-- A command that follows a `complete` runs as it would have run before it. -/
theorem exec_after_complete (i : Instr) (n : Nat) (s : State) (p : Option Snapshot) :
    exec i { complete n s with pending := p } = exec i { s with pending := p } :=
  exec_overwrites_status_resLen i { s with pending := p } statusDone (BitVec.ofNat 32 n)

theorem exec_rsta {s : State} {c : Snapshot} (hc : s.pending = some c) : exec .rsta s = .next (complete 0 s) :=
  withCommand_some hc fun _ => .next (complete 0 s)

theorem exec_rstb {s : State} {c : Snapshot} (hc : s.pending = some c) : exec .rstb s = .next (complete 0 s) :=
  withCommand_some hc fun _ => .next (complete 0 s)

/-- Settles O46: both are `complete(0)`, after which every command runs as before it. -/
theorem rstaRstbOnlyComplete : Obligations.RstaRstbOnlyComplete := by
  refine ⟨rfl, rfl, fun i hash s c hi hc => ?_⟩
  have hexec : exec i s = .next (complete 0 s) := by
    rcases hi with ⟨rfl, -⟩ | ⟨rfl, -⟩
    · exact exec_rsta hc
    · exact exec_rstb hc
  exact ⟨_, hexec, complete_endsComplete s 0, complete_mem s 0, complete_entropy s 0,
    fun c2 u hu => ⟨u, (exec_after_complete hash 0 s (some c2)).trans hu, rfl, rfl, rfl⟩⟩

end Sys2Proof.Machine

/-! Construction B (41_hash_b.md R120 to R124): the buffer starts as the magic, absorb folds one byte at a time, the word
stage works word by word, and one stream serves both passes. -/

namespace Sys2Proof.Machine

theorem le32_getElem? (v : Word) {j : Nat} (h : j < 4) : (le32 v)[j]? = some ((v >>> (8 * j)).setWidth 8) := by
  have hbyte : v.extractLsb' (8 * j) 8 = (v >>> (8 * j)).setWidth 8 := by
    apply BitVec.eq_of_toNat_eq
    simp
  rw [le32, leBytes_getElem? _ _ _ h, ← extractLsb'_byte, hbyte]

/-- The initial buffer repeats the four bytes of the magic (R120). -/
theorem initB_getElem? (magic : Word) {j : Nat} (h : j < 16) : (initB magic)[j]? = (le32 magic)[j % 4]? := by
  interval_cases j <;> rfl

/-- Settles O31: byte j of the buffer is byte j mod 4 of `le_32(magic)`. -/
theorem bufferBStartsAsMagic : Obligations.BufferBStartsAsMagic :=
  fun magic => ⟨initB_length magic, fun j hj =>
    (initB_getElem? magic hj).trans (le32_getElem? magic (Nat.mod_lt j (by decide)))⟩

/-- The last step of R122's loop, on the buffer and the stream that the steps before it leave. -/
theorem absorbB_concat (data buf : Bytes) (d : Byte) (st : Stream) :
    absorbB (data ++ [d]) 0 buf st =
      let old := (absorbB data 0 buf st).1
      (old.set (data.length % 16) (absorbByteB (old.getD (data.length % 16) 0) d (nthByte st data.length)),
        streamAfter (data.length + 1) st) := by
  rw [absorbB_append, absorbB_stream, streamAfter_add, Nat.zero_add]
  rfl

theorem absorbByteB_eq (b d r : Byte) : absorbByteB b d r = (b ^^^ d).rotateLeft 3 + r := by
  rw [absorbByteB, bByteRotation, rotl_eq_rotateLeft _ _ (by decide)]

/-- Settles O32: the last byte's step writes byte L mod 16 alone, with the stream's byte L. -/
theorem absorbBFoldsEachByte : Obligations.AbsorbBFoldsEachByte := by
  intro data buf d st hbuf L old new
  have hold : old.length = 16 := (absorbB_length data 0 buf st).trans hbuf
  have hL : L % 16 < old.length := by omega
  have hnew : new = old.set (L % 16) (absorbByteB (old.getD (L % 16) 0) d (nthByte st L)) :=
    congrArg Prod.fst (absorbB_concat data buf d st)
  refine ⟨rfl, ?_, ?_, fun j hj => ?_, congrArg Prod.snd (absorbB_concat data buf d st)⟩
  · rw [hnew, List.length_set, hold]
  · rw [hnew, List.getElem?_set_self hL, List.getElem?_eq_getElem hL, List.getD_eq_getElem _ _ hL, absorbByteB_eq]
    rfl
  · rw [hnew, List.getElem?_set_ne (Ne.symm hj)]

theorem wordB_eq (magic w : Word) : wordB magic w = (w * magic).rotateLeft 7 ^^^ magic := by
  rw [wordB, bWordRotation, rotl_eq_rotateLeft _ _ (by decide)]

/-- Word k after the word stage depends on word k before it alone (R123). -/
theorem wordsB_word (magic : Word) {n k : Nat} (buf : Bytes) (hk : k < n) :
    ((wordsB magic n buf).drop (4 * k)).take 4 =
      le32 (wordB magic (BitVec.ofNat 32 (fromLe ((buf.drop (4 * k)).take 4)))) := by
  induction n generalizing k buf with
  | zero => omega
  | succ n ih =>
    rw [wordsB]
    cases k with
    | zero => exact List.take_left' (le32_length _)
    | succ k =>
      rw [show 4 * (k + 1) = 4 + 4 * k by ring, ← List.drop_drop, List.drop_left' (le32_length _),
        ih _ (by omega), List.drop_drop]

/-- Settles O33: each word of the stage, by its number. -/
theorem wordStageB : Obligations.WordStageB :=
  fun magic buf hbuf => ⟨(wordsB_length magic 4 buf hbuf.ge).trans hbuf, fun k hk => by
    rw [wordsB_word magic buf hk, wordB_eq]⟩

theorem finalByteB_eq (b r : Byte) : finalByteB b r = (b + r).rotateLeft 3 := by
  rw [finalByteB, bByteRotation, rotl_eq_rotateLeft _ _ (by decide)]

/-- Settles O34: the final pass runs on the stream that absorb leaves, which is L bytes on. -/
theorem finalPassB : Obligations.FinalPassB := by
  intro c magic data st words
  have hstream : (absorbB data 0 (initB magic) st).2 = streamAfter data.length st := absorbB_stream _ _ _ _
  refine ⟨hstream, hashB_length c magic data, fun j _ => ?_⟩
  calc (hashB c magic data)[j]?
      = words[j]?.map fun x => finalByteB x (nthByte (absorbB data 0 (initB magic) st).2 j) :=
        mapWithStream_getElem? finalByteB words _ j
    _ = words[j]?.map fun x => (x + nthByte st (data.length + j)).rotateLeft 3 := by
        simp only [hstream, nthByte_add, finalByteB_eq]

end Sys2Proof.Machine

/-! HASHB (41_hash_b.md R126), by the rule the hash commands share. -/

namespace Sys2Proof.Machine

/-- The three ways the shared rule of the hash commands ends, for n bytes of output. -/
theorem hashCommand_rule (s : State) (r : Regs) {n : Nat} {out : Bytes → Bytes} (hlen : ∀ data, (out data).length = n) :
    let inside := r.src.toNat + r.srcLen.toNat ≤ s.params.memSize ∧ r.dst.toNat + n ≤ s.params.memSize
    (¬inside → ∃ t, hashCommand s r n out = .next t ∧ EndsInError 7 s t ∧ t.mem = s.mem ∧ t.entropy = s.entropy) ∧
    (inside → readBytes s.mem r.src.toNat r.srcLen.toNat = none → hashCommand s r n out = .fault .unwrittenRead) ∧
    (∀ data, inside → readBytes s.mem r.src.toNat r.srcLen.toNat = some data →
      ∃ t, hashCommand s r n out = .next t ∧ EndsComplete n s t ∧ t.entropy = s.entropy ∧
        (out data).length = n ∧ memHolds t r.dst.toNat (out data) ∧ memSameOutside s t r.dst.toNat n) := by
  intro inside
  refine ⟨fun hout => ?_, fun hin hread => ?_, fun data hin hread => ?_⟩
  · exact ⟨_, hashCommand_outside hout, raiseError_endsInError s .addressError, raiseError_mem s _,
      raiseError_entropy s _⟩
  · rw [hashCommand_inside hin, memRead_none hread]
  · obtain ⟨hends, hholds, hsame⟩ := complete_memWrite s n r.dst.toNat (out data) (hlen data)
    exact ⟨_, (hashCommand_inside hin).trans (memRead_some hread _), hends, rfl, hlen data, hholds, hsame⟩

theorem exec_hashb {s : State} {c : Snapshot} (hc : s.pending = some c) :
    exec .hashb s = hashCommand s c.regs 16 (hashB s.params.prng c.regs.bMagic) :=
  withCommand_some hc fun r => hashCommand s r 16 (hashB s.params.prng r.bMagic)

/-- R126's example: the stream bytes of absorb, the absorbed buffer and the output. -/
theorem hashB_example :
    (List.range 3).map (nthByte (streamInit .splitMix64 0x12345678)) = [0x6f, 0x6b, 0x90] ∧
    (absorbB [0x61, 0x62, 0x63] 0 (initB 0x12345678) (streamInit .splitMix64 0x12345678)).1 =
      [0x37, 0x0c, 0x4a, 0x12, 0x78, 0x56, 0x34, 0x12, 0x78, 0x56, 0x34, 0x12, 0x78, 0x56, 0x34, 0x12] ∧
    hashB .splitMix64 0x12345678 [0x61, 0x62, 0x63] =
      [0x77, 0x5f, 0x48, 0xee, 0x75, 0x6c, 0x6f, 0x2e, 0x65, 0xc4, 0x63, 0x66, 0xaa, 0xac, 0x5a, 0x65] := by
  decide

/-- Settles O44: HASHB is the shared rule with 16 bytes of output; the example is evaluated. -/
theorem hashbRule : Obligations.HashbRule := by
  refine ⟨rfl, fun s c hc => ?_, hashB_example⟩
  rw [exec_hashb hc]
  exact hashCommand_rule s c.regs (hashB_length s.params.prng c.regs.bMagic)

end Sys2Proof.Machine

/-! Construction C (42_hash_c.md R140 to R146): absorb folds by XOR, the two diffusions are prefix and suffix XOR, and the
rounds run their four passes on one stream. -/

namespace Sys2Proof.Machine

/-- The right side of R140: the XOR of the data bytes whose position is j modulo 32. -/
def foldedByte (data : Bytes) (j : Nat) : Byte :=
  xorAll (((List.range data.length).filter fun i => i % 32 = j).map fun i => data.getD i 0)

/-- One more byte of data goes into its own position alone. -/
theorem foldedByte_concat (data : Bytes) (d : Byte) (j : Nat) :
    foldedByte (data ++ [d]) j = foldedByte data j ^^^ if data.length % 32 = j then d else 0 := by
  have hold : ∀ i ∈ (List.range data.length).filter fun i => i % 32 = j, (data ++ [d]).getD i 0 = data.getD i 0 :=
    fun i hi => List.getD_append _ _ _ _ (List.mem_range.mp (List.mem_filter.mp hi).1)
  rw [foldedByte, List.length_append, List.length_singleton, List.range_succ, List.filter_append, List.map_append,
    xorAll_append, List.map_congr_left hold, ← foldedByte]
  congr 1
  by_cases h : data.length % 32 = j <;> simp [h, xorAll]

/-- The last step of R140's loop, on the buffer that the steps before it leave. -/
theorem absorbC_concat (data buf : Bytes) (d : Byte) :
    absorbC (data ++ [d]) 0 buf =
      (absorbC data 0 buf).set (data.length % 32) ((absorbC data 0 buf).getD (data.length % 32) 0 ^^^ d) := by
  rw [absorbC_append, Nat.zero_add]
  rfl

theorem absorbC_getElem? (data : Bytes) {j : Nat} (hj : j < 32) :
    (absorbC data 0 (List.replicate 32 0))[j]? = some (foldedByte data j) := by
  induction data using List.reverseRecOn with
  | nil => exact List.getElem?_replicate_of_lt hj
  | append_singleton data d ih =>
    rw [absorbC_concat, foldedByte_concat]
    by_cases h : data.length % 32 = j
    · have hlt : j < (absorbC data 0 (List.replicate 32 0)).length := by rwa [absorbC_length, List.length_replicate]
      rw [h, List.getElem?_set_self hlt, List.getD_eq_getElem?_getD, ih, if_pos rfl]
      rfl
    · rw [List.getElem?_set_ne h, ih, if_neg h]
      exact congrArg some BitVec.xor_zero.symm

/-- Settles O36, by induction on the data from its end. -/
theorem absorbCFoldsByXor : Obligations.AbsorbCFoldsByXor :=
  fun data => ⟨absorbC_length data 0 _, fun _ hj => absorbC_getElem? data hj⟩

/-- The forward pass, as if a zero byte stood before the buffer. -/
theorem forwardDiffusion_eq_forwardFrom (buf : Bytes) : forwardDiffusion buf = forwardFrom 0 buf := by
  cases buf with
  | nil => rfl
  | cons b rest => simp [forwardDiffusion, forwardFrom]

/-- Settles O37: the forward pass carries the XOR of the bytes before. -/
theorem forwardIsPrefixXor : Obligations.ForwardIsPrefixXor := by
  refine fun buf => ⟨forwardDiffusion_length buf, fun j hj => ?_⟩
  simpa [forwardDiffusion_eq_forwardFrom] using forwardFrom_getElem? 0 buf j hj

/-- The first byte after the backward pass has taken in all of them. -/
theorem backwardDiffusion_headD (buf : Bytes) : (backwardDiffusion buf).headD 0 = xorAll buf := by
  induction buf with
  | nil => rfl
  | cons b rest ih => rw [backwardDiffusion_cons, List.headD_cons, ih]; rfl

/-- The backward pass works on each suffix by itself. -/
theorem backwardDiffusion_drop (buf : Bytes) (j : Nat) :
    (backwardDiffusion buf).drop j = backwardDiffusion (buf.drop j) := by
  induction buf generalizing j with
  | nil => simp [backwardDiffusion]
  | cons b rest ih =>
    cases j with
    | zero => rfl
    | succ j => rw [backwardDiffusion_cons, List.drop_succ_cons, List.drop_succ_cons, ih]

/-- Settles O38: byte j is the first byte of the pass over the suffix from j on. -/
theorem backwardIsSuffixXor : Obligations.BackwardIsSuffixXor := by
  refine fun buf => ⟨backwardDiffusion_length buf, fun j hj => ?_⟩
  have hlt : j < (backwardDiffusion buf).length := by rwa [backwardDiffusion_length]
  have hhead : (backwardDiffusion buf)[j] = xorAll (buf.drop j) := by
    rw [← backwardDiffusion_headD, ← backwardDiffusion_drop, List.drop_eq_getElem_cons hlt, List.headD_cons]
  rw [List.getElem?_eq_getElem hlt, hhead]

theorem scrambleByte_eq (b r : Byte) : scrambleByte b r = (b + r).rotateLeft 3 := by
  rw [scrambleByte, cByteRotation, rotl_eq_rotateLeft _ _ (by decide)]

theorem avalancheByte_eq (b r : Byte) : avalancheByte b r = (b * 0xB5) ^^^ r := rfl

/-- A pass that starts n bytes into a stream. -/
theorem mapWithStream_streamAfter_getElem? (f : Byte → Byte → Byte) (buf : Bytes) (st : Stream) (n j : Nat) :
    (mapWithStream f buf (streamAfter n st)).1[j]? = buf[j]?.map fun x => f x (nthByte st (n + j)) := by
  simp only [mapWithStream_getElem?, nthByte_add]

/-- A round's four passes (R142), the last of them on the stream that the first leaves. -/
theorem roundC_eq_passes (buf : Bytes) (st : Stream) :
    roundC buf st = mapWithStream avalancheByte
      (backwardDiffusion (forwardDiffusion (mapWithStream scrambleByte buf st).1)) (streamAfter buf.length st) := by
  rw [roundC, mapWithStream_stream]

/-- Settles O39: round r is the four passes on the stream 64r bytes on; `scrambled` is the buffer after the first. -/
theorem roundsRunFourPassesInOrder : Obligations.RoundsRunFourPassesInOrder := by
  intro buf st r hbuf
  have hlen (n : Nat) : (roundsC n buf st).1.length = 32 := (roundsC_length n buf st).trans hbuf
  have hstream : (roundsC r buf st).2 = streamAfter (64 * r) st := by rw [roundsC_stream, hbuf]
  have hround : roundsC (r + 1) buf st = mapWithStream avalancheByte
      (backwardDiffusion (forwardDiffusion
        (mapWithStream scrambleByte (roundsC r buf st).1 (streamAfter (64 * r) st)).1))
      (streamAfter (64 * r + 32) st) := by
    rw [roundsC_succ, hstream, roundC_eq_passes, hlen, ← streamAfter_add]
  refine ⟨rfl, hstream, (mapWithStream scrambleByte (roundsC r buf st).1 (streamAfter (64 * r) st)).1,
    (mapWithStream_length _ _ _).trans (hlen r), fun j _ => ?_, hlen (r + 1), fun j _ => ?_⟩
  · simp only [mapWithStream_streamAfter_getElem?, scrambleByte_eq]
  · simp only [hround, mapWithStream_streamAfter_getElem?, avalancheByte_eq]

end Sys2Proof.Machine

/-! HASHC (42_hash_c.md R148), by the rule the hash commands share. -/

namespace Sys2Proof.Machine

theorem exec_hashc {s : State} {c : Snapshot} (hc : s.pending = some c) :
    exec .hashc s = hashCommand s c.regs 32 (hashC s.params.prng s.params.cSeed.toList c.regs.cRounds.toNat) :=
  withCommand_some hc fun r => hashCommand s r 32 (hashC s.params.prng s.params.cSeed.toList r.cRounds.toNat)

/-- R148's first example: without rounds the output is the absorbed input, and no stream byte is drawn. -/
theorem hashC_example_noRounds (c : PrngChoice) (cSeed : Bytes) :
    hashC c cSeed 0 [0x61, 0x62, 0x63] = [0x61, 0x62, 0x63] ++ List.replicate 29 0 := by
  rfl

/-- R148's second example, with C_ROUNDS 8 and no data. -/
theorem hashC_example_eightRounds :
    let out := hashC .splitMix64 Params.reference.cSeed.toList 8 []
    out.length = 32 ∧ out.take 4 = [0x86, 0xae, 0xa6, 0x2f] ∧ out.drop 28 = [0x9f, 0x72, 0xff, 0x48] := by
  decide +kernel

/-- Settles O45: HASHC is the shared rule with 32 bytes of output, on the stream R141 seeds; the examples are evaluated. -/
theorem hashcRule : Obligations.HashcRule := by
  refine ⟨rfl, fun s c hc => ?_, hashC_example_noRounds, hashC_example_eightRounds⟩
  rw [exec_hashc hc]
  exact hashCommand_rule s c.regs (hashC_length s.params.prng s.params.cSeed.toList c.regs.cRounds.toNat)

end Sys2Proof.Machine

/-! CTR (43_ctr_cipher.md R163): the counter block as bytes, and the keystream XORed onto the data byte by byte. -/

namespace Sys2Proof.Machine

theorem fromBe_be128 (x : U128) : fromBe (be128 x) = x.toNat := by
  rw [fromBe, be128, List.reverse_reverse, fromLe_leBytes]
  exact Nat.mod_eq_of_lt x.isLt

/-- Byte j of `be_128`, from the most significant. -/
theorem be128_getElem? (x : U128) {j : Nat} (h : j < 16) :
    (be128 x)[j]? = some (x.extractLsb' (8 * (15 - j)) 8) := by
  rw [be128, List.getElem?_reverse (by rwa [leBytes_length]), leBytes_length, leBytes_getElem? _ _ _ (by omega),
    extractLsb'_byte]

theorem xorBytes_getElem? {a b : Bytes} {i : Nat} {x y : Byte} (ha : a[i]? = some x) (hb : b[i]? = some y) :
    (xorBytes a b)[i]? = some (x ^^^ y) :=
  List.getElem?_zipWith_eq_some.mpr ⟨x, y, ha, hb, rfl⟩

/-- The counter block that encrypts data byte i. -/
theorem ctr_keystream_getElem? (c : CipherChoice) (key iv data : Bytes) {i : Nat} (h : i < data.length) :
    (keystream c key ((data.length + 15) / 16) (BitVec.ofNat 128 (fromBe iv)))[i]? =
      (encryptBlock c key (be128 (BitVec.ofNat 128 (fromBe iv + i / 16))))[i % 16]? := by
  rw [keystream_getElem? _ _ _ _ _ (by omega), BitVec.ofNat_add]

/-- Settles O41: the keystream covers the data, and each byte of it is one of the 16 of its block. -/
theorem ctrCombinesCounterBlocks : Obligations.CtrCombinesCounterBlocks := by
  refine ⟨fun x => ⟨be128_length x, fromBe_be128 x, fun j hj => be128_getElem? x hj⟩, fun c key iv data _ =>
    ⟨ctrCrypt_length c key iv data, fun i hi => ?_⟩⟩
  have hblock : i % 16 < (encryptBlock c key (be128 (BitVec.ofNat 128 (fromBe iv + i / 16)))).length := by
    rw [encryptBlock_length _ _ _ (be128_length _)]
    exact Nat.mod_lt i (by decide)
  have hx := List.getElem?_eq_getElem hi
  have hk := List.getElem?_eq_getElem hblock
  exact ⟨_, _, hx, hk, xorBytes_getElem? hx ((ctr_keystream_getElem? c key iv data hi).trans hk)⟩

end Sys2Proof.Machine

/-! The rule ENC, ENC.G and DEC share (43_ctr_cipher.md R160, R165): the key length, the three regions, the
input and the key read. -/

namespace Sys2Proof.Machine

/-- The input, the key and n bytes of output lie in MEM (R55). -/
def CipherRegionsInMem (s : State) (r : Regs) (n : Nat) : Prop :=
  r.src.toNat + r.srcLen.toNat ≤ s.params.memSize ∧ r.key.toNat + 32 ≤ s.params.memSize ∧
    r.dst.toNat + n ≤ s.params.memSize

/-- The checks of ENC, ENC.G and DEC on their three regions, in the rules' order, for n bytes of output. -/
def cipherCommand (s : State) (r : Regs) (n : Nat) (go : Out) : Out :=
  if !inRange s r.src.toNat r.srcLen.toNat then .next (raiseError .addressError s)
  else if !inRange s r.key.toNat 32 then .next (raiseError .addressError s)
  else if !inRange s r.dst.toNat n then .next (raiseError .addressError s)
  else go

/-- ENC and DEC look at KEY_LEN before the regions. -/
def keyedCommand (s : State) (r : Regs) (n : Nat) (go : Out) : Out :=
  if r.keyLen.toNat ≠ 32 then .next (raiseError .keyError s) else cipherCommand s r n go

/-- ENC and DEC read the input at SRC and then the key at KEY. -/
def readInputAndKey (s : State) (r : Regs) (go : Bytes → Bytes → Out) : Out :=
  memRead s r.src.toNat r.srcLen.toNat fun input => memRead s r.key.toNat 32 fun key => go input key

section

variable {s : State} {r : Regs} {n : Nat} {go : Out}

theorem cipherCommand_outside (h : ¬CipherRegionsInMem s r n) :
    cipherCommand s r n go = .next (raiseError .addressError s) := by
  by_cases hsrc : r.src.toNat + r.srcLen.toNat ≤ s.params.memSize
  · by_cases hkey : r.key.toNat + 32 ≤ s.params.memSize
    · have hdst : ¬r.dst.toNat + n ≤ s.params.memSize := fun hdst => h ⟨hsrc, hkey, hdst⟩
      simp [cipherCommand, inRange, hsrc, hkey, hdst]
    · simp [cipherCommand, inRange, hsrc, hkey]
  · simp [cipherCommand, inRange, hsrc]

theorem cipherCommand_inside (h : CipherRegionsInMem s r n) : cipherCommand s r n go = go := by
  obtain ⟨hsrc, hkey, hdst⟩ := h
  simp [cipherCommand, inRange, hsrc, hkey, hdst]

theorem keyedCommand_badKey (h : r.keyLen ≠ 32) : keyedCommand s r n go = .next (raiseError .keyError s) :=
  if_pos fun hlen => h (BitVec.eq_of_toNat_eq hlen)

theorem keyedCommand_goodKey (h : r.keyLen = 32) : keyedCommand s r n go = cipherCommand s r n go :=
  if_neg (not_not_intro (congrArg BitVec.toNat h))

theorem keyedCommand_outside (hkey : r.keyLen = 32) (h : ¬CipherRegionsInMem s r n) :
    keyedCommand s r n go = .next (raiseError .addressError s) :=
  (keyedCommand_goodKey hkey).trans (cipherCommand_outside h)

theorem keyedCommand_inside (hkey : r.keyLen = 32) (h : CipherRegionsInMem s r n) : keyedCommand s r n go = go :=
  (keyedCommand_goodKey hkey).trans (cipherCommand_inside h)

theorem readInputAndKey_unwritten {go : Bytes → Bytes → Out}
    (h : readBytes s.mem r.src.toNat r.srcLen.toNat = none ∨ readBytes s.mem r.key.toNat 32 = none) :
    readInputAndKey s r go = .fault .unwrittenRead := by
  unfold readInputAndKey
  cases hinput : readBytes s.mem r.src.toNat r.srcLen.toNat with
  | none => exact memRead_none hinput _
  | some input =>
    have hkey : readBytes s.mem r.key.toNat 32 = none := h.resolve_left (by simp [hinput])
    rw [memRead_some hinput, memRead_none hkey]

theorem readInputAndKey_written {go : Bytes → Bytes → Out} {input key : Bytes}
    (hinput : readBytes s.mem r.src.toNat r.srcLen.toNat = some input)
    (hkey : readBytes s.mem r.key.toNat 32 = some key) :
    readInputAndKey s r go = go input key := by
  rw [readInputAndKey, memRead_some hinput, memRead_some hkey]

/-- An outcome that is a raise, perhaps after draws, in the terms of the commands' rules. -/
theorem endsInError_of_raise {o : Out} (e : ErrorCode) (ent : EntropySource)
    (h : o = .next (raiseError e { s with entropy := ent })) :
    ∃ t, o = .next t ∧ EndsInError (errorNumber e) s t ∧ t.mem = s.mem ∧ t.entropy = ent :=
  ⟨_, h, raiseError_endsInError { s with entropy := ent } e, rfl, rfl⟩

end

end Sys2Proof.Machine

/-! ENC and ENC.G (43_ctr_cipher.md R160 to R164). -/

namespace Sys2Proof.Machine

section

variable {s : State} {r : Regs} {key data iv : Bytes} {e1 e : EntropySource}

theorem encFinish_ivFails (hiv : entropyDraw 16 s.entropy = (none, e)) :
    encFinish r key data s = raiseError .hashError { s with entropy := e } := by
  simp [encFinish, ivLength, hiv]

theorem encFinish_draws (hiv : entropyDraw 16 s.entropy = (some iv, e)) :
    encFinish r key data s = complete (16 + data.length)
      (memWrite r.dst.toNat (envelope s.params.cipher key iv data) { s with entropy := e }) := by
  simp [encFinish, ivLength, hiv]

theorem encGFinish_keyFails (hkey : entropyDraw 32 s.entropy = (none, e)) :
    encGFinish r data s = raiseError .hashError { s with entropy := e } := by
  simp [encGFinish, keyLength, hkey]

theorem encGFinish_ivFails (hkey : entropyDraw 32 s.entropy = (some key, e1)) (hiv : entropyDraw 16 e1 = (none, e)) :
    encGFinish r data s = raiseError .hashError { s with entropy := e } := by
  simp [encGFinish, keyLength, ivLength, hkey, hiv]

theorem encGFinish_draws (hkey : entropyDraw 32 s.entropy = (some key, e1))
    (hiv : entropyDraw 16 e1 = (some iv, e)) :
    encGFinish r data s = complete (16 + data.length) (memWrite r.dst.toNat (envelope s.params.cipher key iv data)
      (memWrite r.key.toNat key { s with entropy := e })) := by
  simp [encGFinish, keyLength, ivLength, hkey, hiv]

/-- The envelope is 16 bytes of IV and as many of ciphertext as of data (R164). -/
theorem envelope_length_of_draw {e0 : EntropySource} {n : Nat} (c : CipherChoice) (key : Bytes)
    (hiv : entropyDraw 16 e0 = (some iv, e)) (hdata : data.length = n) :
    (envelope c key iv data).length = 16 + n := by
  rw [envelope_length, entropyDraw_length hiv, hdata]

end

theorem exec_enc {s : State} {c : Snapshot} (hc : s.pending = some c) :
    exec .enc s = keyedCommand s c.regs (16 + c.regs.srcLen.toNat)
      (readInputAndKey s c.regs fun data key => .next (encFinish c.regs key data s)) :=
  withCommand_some hc fun r => keyedCommand s r (16 + r.srcLen.toNat)
    (readInputAndKey s r fun data key => .next (encFinish r key data s))

theorem exec_encG {s : State} {c : Snapshot} (hc : s.pending = some c) :
    exec .encG s = cipherCommand s c.regs (16 + c.regs.srcLen.toNat)
      (memRead s c.regs.src.toNat c.regs.srcLen.toNat fun data => .next (encGFinish c.regs data s)) :=
  withCommand_some hc fun r => cipherCommand s r (16 + r.srcLen.toNat)
    (memRead s r.src.toNat r.srcLen.toNat fun data => .next (encGFinish r data s))

/-- R164's example. -/
theorem ctrCrypt_example_enc :
    ctrCrypt .aes256 ((List.range 32).map (BitVec.ofNat 8)) ((List.range 16).map (BitVec.ofNat 8)) [0x61, 0x62, 0x63] =
      [0x3b, 0x0c, 0x67] := by
  decide +kernel

/-- Two writes, the second of n bytes: it holds its bytes, the first holds its own where the second does not reach, and
the rest of MEM is as before. -/
theorem readByte_writeBytes_writeBytes (m : Memory) {a b : Nat} {k v : Bytes} {n : Nat} (hv : v.length = n) :
    let m' := writeBytes (writeBytes m a k) b v
    (∀ i, i < v.length → readByte m' (b + i) = v[i]?) ∧
    (∀ j, j < k.length → (a + j < b ∨ b + n ≤ a + j) → readByte m' (a + j) = k[j]?) ∧
    (∀ x, (x < b ∨ b + n ≤ x) → (x < a ∨ a + k.length ≤ x) → readByte m' x = readByte m x) := by
  subst hv
  refine ⟨fun i hi => readByte_writeBytes_inside _ _ _ _ hi, fun j hj hout => ?_, fun x hb ha => ?_⟩
  · rw [readByte_writeBytes_outside _ _ _ _ hout, readByte_writeBytes_inside _ _ _ _ hj]
  · rw [readByte_writeBytes_outside _ _ _ _ hb, readByte_writeBytes_outside _ _ _ _ ha]

/-- Settles O48: each clause is one branch of the shared rule and one outcome of the draws; the example is evaluated. -/
theorem encRule : Obligations.EncRule := by
  refine ⟨rfl, rfl, fun s c hc => ?_, ctrCrypt_example_enc⟩
  intro r n env inside
  have hregions : inside ↔ CipherRegionsInMem s r (16 + n) := by
    rw [CipherRegionsInMem, ← Nat.add_assoc]
  rw [exec_enc hc, exec_encG hc, hregions]
  refine ⟨fun hk => ?_, fun hk hout => ?_, fun hk hin hread => ?_, fun data key hk hin hdata hkey => ?_,
    fun hout => ?_, fun hin hread => ?_, fun data hin hdata => ?_⟩
  · exact endsInError_of_raise .keyError s.entropy (keyedCommand_badKey hk)
  · exact endsInError_of_raise .addressError s.entropy (keyedCommand_outside hk hout)
  · rw [keyedCommand_inside hk hin, readInputAndKey_unwritten hread]
  · rw [keyedCommand_inside hk hin, readInputAndKey_written hdata hkey]
    refine ⟨fun e hiv => endsInError_of_raise .hashError e (congrArg _ (encFinish_ivFails hiv)), fun iv e hiv => ?_⟩
    have hlen : (env key iv data).length = 16 + n := envelope_length_of_draw _ key hiv (readBytes_length hdata)
    obtain ⟨hends, hholds, hsame⟩ := complete_memWrite { s with entropy := e } (16 + n) r.dst.toNat _ hlen
    rw [encFinish_draws hiv, readBytes_length hdata]
    exact ⟨_, rfl, hends, rfl, hlen, hholds, hsame⟩
  · exact endsInError_of_raise .addressError s.entropy (cipherCommand_outside hout)
  · rw [cipherCommand_inside hin, memRead_none hread]
  · rw [cipherCommand_inside hin, memRead_some hdata]
    refine ⟨fun e hkey => endsInError_of_raise .hashError e (congrArg _ (encGFinish_keyFails hkey)),
      fun key e1 e hkey hiv => endsInError_of_raise .hashError e (congrArg _ (encGFinish_ivFails hkey hiv)),
      fun key e1 iv e hkey hiv => ?_⟩
    have hlen : (env key iv data).length = 16 + n := envelope_length_of_draw _ key hiv (readBytes_length hdata)
    obtain ⟨hholds, hkeyHolds, hsame⟩ :=
      readByte_writeBytes_writeBytes s.mem (a := r.key.toNat) (b := r.dst.toNat) (k := key) hlen
    rw [entropyDraw_length hkey] at hkeyHolds hsame
    rw [encGFinish_draws hkey hiv, readBytes_length hdata]
    exact ⟨_, rfl, complete_endsComplete _ _, rfl, hlen, hholds, hkeyHolds, hsame⟩

end Sys2Proof.Machine

/-! DEC (43_ctr_cipher.md R165). -/

namespace Sys2Proof.Machine

/-- DEC once its regions are in MEM, for m bytes of output: CRYPTO_ERROR if the input is shorter than an IV, else the
plaintext. -/
def decFinish (s : State) (r : Regs) (m : Nat) : Out :=
  if r.srcLen.toNat < 16 then .next (raiseError .cryptoError s)
  else readInputAndKey s r fun env key =>
    .next (complete m (memWrite r.dst.toNat (ctrCrypt s.params.cipher key (env.take 16) (env.drop 16)) s))

theorem exec_dec {s : State} {c : Snapshot} (hc : s.pending = some c) :
    exec .dec s = keyedCommand s c.regs (c.regs.srcLen.toNat - 16) (decFinish s c.regs (c.regs.srcLen.toNat - 16)) := by
  rw [← decLength]
  exact withCommand_some hc fun r =>
    let m := if r.srcLen.toNat ≥ ivLength then r.srcLen.toNat - ivLength else 0
    keyedCommand s r m (decFinish s r m)

section

variable {s : State} {r : Regs} {m : Nat}

theorem decFinish_short (h : r.srcLen.toNat < 16) : decFinish s r m = .next (raiseError .cryptoError s) :=
  if_pos h

theorem decFinish_long (h : 16 ≤ r.srcLen.toNat) :
    decFinish s r m = readInputAndKey s r fun env key =>
      .next (complete m (memWrite r.dst.toNat (ctrCrypt s.params.cipher key (env.take 16) (env.drop 16)) s)) :=
  if_neg h.not_gt

end

/-- R165's example. -/
theorem ctrCrypt_example_dec :
    ctrCrypt .aes256 ((List.range 32).map (BitVec.ofNat 8)) ((List.range 16).map (BitVec.ofNat 8)) [0x3b, 0x0c, 0x67] =
      [0x61, 0x62, 0x63] := by
  decide +kernel

/-- Settles O49: each clause is one branch of the shared rule; the example is evaluated. -/
theorem decRule : Obligations.DecRule := by
  refine ⟨rfl, fun s c hc => ?_, ctrCrypt_example_dec⟩
  intro r n out inside
  rw [exec_dec hc]
  refine ⟨fun hk => ?_, fun hk hout => ?_, fun hk hin hn => ?_, fun hk hin hn hread => ?_,
    fun env key hk hin hn henv hkey => ?_⟩
  · exact endsInError_of_raise .keyError s.entropy (keyedCommand_badKey hk)
  · exact endsInError_of_raise .addressError s.entropy (keyedCommand_outside hk hout)
  · rw [keyedCommand_inside hk hin]
    exact endsInError_of_raise .cryptoError s.entropy (decFinish_short hn)
  · rw [keyedCommand_inside hk hin, decFinish_long hn, readInputAndKey_unwritten hread]
  · rw [keyedCommand_inside hk hin, decFinish_long hn, readInputAndKey_written henv hkey]
    have hlen : (out key env).length = n - 16 := by
      rw [ctrCrypt_length, List.length_drop, readBytes_length henv]
    obtain ⟨hends, hholds, hsame⟩ := complete_memWrite s (n - 16) r.dst.toNat (out key env) hlen
    exact ⟨_, rfl, hends, rfl, hlen, hholds, hsame⟩

end Sys2Proof.Machine

/-! Key stretching (44_key_stretch.md R180, R181): Stretch iterates Construction A, and STRETCH is the rule the hash
commands share once ITER and OSIZE are not zero. -/

namespace Sys2Proof.Machine

/-- The model peels the first iteration off; R181's equation peels off the last. -/
theorem stretchA_succ (c : PrngChoice) (seed : U64) (os t : Nat) (d : Bytes) :
    stretchA c seed os (t + 1) d = hashA c seed os (stretchA c seed os t d) := by
  induction t generalizing d with
  | zero => rfl
  | succ t ih => exact ih (hashA c seed os d)

/-- Settles O30: no iteration and one are the definition, a further one goes outermost. -/
theorem stretchIteratesA : Obligations.StretchIteratesA :=
  fun c seed d os => ⟨rfl, rfl, fun t => stretchA_succ c seed os t d⟩

theorem stretchA_length_of_ne_zero {it : Nat} (h : it ≠ 0) (c : PrngChoice) (seed : U64) (os : Nat) (d : Bytes) :
    (stretchA c seed os it d).length = os := by
  obtain ⟨t, rfl⟩ := Nat.exists_eq_succ_of_ne_zero h
  exact stretchA_length c seed os t d

/-- STRETCH looks at ITER and OSIZE before the regions (R180). -/
theorem exec_stretch {s : State} {c : Snapshot} (hc : s.pending = some c) :
    exec .stretch s =
      if c.regs.iter.toNat = 0 ∨ c.regs.osize.toNat = 0 then .next (raiseError .invalidInput s)
      else hashCommand s c.regs c.regs.osize.toNat
        (stretchA s.params.prng (aSeedOf c.regs) c.regs.osize.toNat c.regs.iter.toNat) :=
  withCommand_some hc fun r =>
    if r.iter.toNat = 0 ∨ r.osize.toNat = 0 then .next (raiseError .invalidInput s)
    else hashCommand s r r.osize.toNat (stretchA s.params.prng (aSeedOf r) r.osize.toNat r.iter.toNat)

theorem exec_stretch_invalid {s : State} {c : Snapshot} (hc : s.pending = some c)
    (h : c.regs.iter = 0 ∨ c.regs.osize = 0) : exec .stretch s = .next (raiseError .invalidInput s) :=
  (exec_stretch hc).trans (if_pos (h.imp (congrArg BitVec.toNat) (congrArg BitVec.toNat)))

theorem exec_stretch_valid {s : State} {c : Snapshot} (hc : s.pending = some c)
    (hiter : c.regs.iter ≠ 0) (hosize : c.regs.osize ≠ 0) :
    exec .stretch s = hashCommand s c.regs c.regs.osize.toNat
      (stretchA s.params.prng (aSeedOf c.regs) c.regs.osize.toNat c.regs.iter.toNat) :=
  (exec_stretch hc).trans
    (if_neg (not_or_intro (BitVec.toNat_ne_iff_ne.mpr hiter) (BitVec.toNat_ne_iff_ne.mpr hosize)))

/-- R180's example. -/
theorem stretchA_example : stretchA .splitMix64 0 16 1 [0x61, 0x62, 0x63] =
    [0x74, 0x44, 0x15, 0xa1, 0xf3, 0x35, 0x67, 0xce, 0xdd, 0xb7, 0x61, 0x49, 0x50, 0x83, 0x6a, 0x2a] := by
  decide

/-- Settles O50: a zero ITER or OSIZE is the first check; otherwise each clause is one of the shared rule's, whose output
is OSIZE bytes because at least one iteration is made. The example is evaluated. -/
theorem stretchRule : Obligations.StretchRule := by
  refine ⟨rfl, fun s c hc => ?_, stretchA_example⟩
  intro r out inside
  have hlen (hiter : r.iter ≠ 0) (data : Bytes) : (out data).length = r.osize.toNat :=
    stretchA_length_of_ne_zero (BitVec.toNat_ne_iff_ne.mpr hiter) _ _ _ data
  refine ⟨fun hzero => ?_, fun hiter hosize => ?_, fun hiter hosize => ?_, fun data hiter hosize => ?_⟩
  · exact endsInError_of_raise .invalidInput s.entropy (exec_stretch_invalid hc hzero)
  all_goals
    rw [exec_stretch_valid hc hiter hosize]
    obtain ⟨houtside, hunwritten, hcompletes⟩ := hashCommand_rule s r (hlen hiter)
  · exact houtside
  · exact hunwritten
  · exact hcompletes data

end Sys2Proof.Machine

/-! Host accesses while a command is pending, and reset (70_reset_and_hazards.md R231 to R233, R237). -/

namespace Sys2Proof.Machine

theorem hostOp_writeCmd_busy {s : State} (hbusy : statusBUSY s.status = true) (w : Word) :
    hostOp (.writeReg 0x00 32 w) s = .fault .hostProtocol := by
  calc hostOp (.writeReg (regOffset .CMD) 32 w) s
      = writeReg .CMD w s := hostOp_writeReg .CMD w s
    _ = .fault .hostProtocol := by simp [writeReg, hbusy]

theorem hostMemLegal_busy {s : State} (hbusy : statusBUSY s.status = true) (a : Nat) : hostMemLegal s a = false := by
  simp [hostMemLegal, hbusy]

theorem hostMemLegal_idle {s : State} {a : Nat} (hidle : statusBUSY s.status = false) (ha : a < s.params.memSize) :
    hostMemLegal s a = true := by
  simp [hostMemLegal, hidle, ha]

/-- Settles O5: register accesses do not look at BUSY, but for the CMD write; a MEM access looks at it first. -/
theorem accessesWhileBusy : Obligations.AccessesWhileBusy := by
  intro s hbusy
  refine ⟨fun r v => ⟨_, hostOp_readReg r v s, rfl, rfl⟩,
    fun r v hr => ⟨_, hostOp_writeReg_readWrite hr v s, readReg_writeRegs v s hr, rfl, rfl⟩,
    hostOp_writeCmd_busy hbusy, fun a b => ?_, fun a v => ?_⟩
  all_goals simp [hostOp, hostMemLegal_busy hbusy]

theorem readBytes_unwritten_head {m : Memory} {a n : Nat} (hn : 0 < n) (ha : readByte m a = none) :
    readBytes m a n = none :=
  (readBytes_eq_none m a n).mpr ⟨0, hn, ha⟩

theorem hostOp_readMem_unwritten {s : State} {a : Nat} (hidle : statusBUSY s.status = false)
    (ha : a < s.params.memSize) (hun : readByte s.mem a = none) (v : Nat) :
    hostOp (.readMem a v) s = .fault .unwrittenRead := by
  simp only [hostOp, hostMemLegal_idle hidle ha, if_true]
  exact memRead_none (readBytes_unwritten_head Nat.one_pos hun) _

theorem turn_reset (s : State) : turn .reset s = .next (hardReset s) := rfl

theorem hardReset_idle (s : State) : statusBUSY (hardReset s).status = false := by
  rw [hardReset_status]; decide

theorem hardReset_unwritten (s : State) (x : Nat) : readByte (hardReset s).mem x = none := rfl

/-- The registers with no storage of their own: CMD reads 0 (R24), OSIZE_A is the live A_SIZE (R41), the rest are
constants of the block (R42 to R45). -/
theorem readReg_withoutStorage (s : State) :
    readReg s .CMD = 0 ∧ readReg s .OSIZE_A = s.regs.aSize ∧ readReg s .OSIZE_B = 16 ∧ readReg s .OSIZE_C = 32 ∧
      readReg s .IDENT_A = 0x58494D53 ∧ readReg s .IDENT_B = 0x58494D4D ∧ readReg s .IDENT_C = 0x4644524D ∧
      readReg s .MEMSIZE = BitVec.ofNat 32 s.params.memSize :=
  ⟨rfl, rfl, rfl, rfl, rfl, rfl, rfl, rfl⟩

/-- Settles O12: the live registers are `Regs.afterReset`'s fields, the registers without storage read as in
every state, and the unit is idle, so that the next CMD write is accepted. -/
theorem resetValues : Obligations.ResetValues := by
  intro s
  obtain ⟨hcmd, hosizeA, hosizeB, hosizeC, hidentA, hidentB, hidentC, hmemsize⟩ := readReg_withoutStorage (hardReset s)
  exact ⟨hardReset s, turn_reset s, hardReset_params s, hardReset_status s, hardReset_resLen s, hardReset_pending s,
    rfl, rfl, rfl, rfl, rfl, rfl, rfl, rfl, rfl, rfl, rfl, rfl, rfl, rfl,
    hcmd, hosizeA, hosizeB, hosizeC, hidentA, hidentB, hidentC, hmemsize, rfl, hardReset_unwritten s,
    fun w => ⟨_, hostOp_writeCmd_idle (hardReset_idle s) w, accept_pending _ w⟩⟩

/-- HASHC of an unwritten byte, both regions in MEM. -/
theorem exec_hashc_unwritten_byte {s : State} {c : Snapshot} (hc : s.pending = some c)
    (hsrc : c.regs.src.toNat < s.params.memSize) (hlen : c.regs.srcLen = 1)
    (hdst : c.regs.dst.toNat + 32 ≤ s.params.memSize) (hun : readByte s.mem c.regs.src.toNat = none) :
    exec .hashc s = .fault .unwrittenRead := by
  have hone : c.regs.srcLen.toNat = 1 := congrArg BitVec.toNat hlen
  rw [exec_hashc hc, hashCommand_inside ⟨by omega, hdst⟩]
  exact memRead_none (readBytes_unwritten_head (by omega) hun) _

/-- Settles O13: after reset no byte is written, and both reads are legal, so the byte alone decides. -/
theorem resetLeavesMemUnwritten : Obligations.ResetLeavesMemUnwritten := by
  intro s
  exact ⟨hardReset s, turn_reset s, hardReset_pending s, hardReset_status s, hardReset_unwritten s,
    fun a v ha => hostOp_readMem_unwritten (hardReset_idle s) ha (hardReset_unwritten s a) v,
    fun c hsrc hlen hdst => exec_hashc_unwritten_byte rfl hsrc hlen hdst (hardReset_unwritten s _)⟩

end Sys2Proof.Machine

/-! Decoding against encoding (30_encoding.md R70 to R73, R81): a word is its fields, and the opcode map has one row per
command. -/

namespace Sys2Proof

/-- Two words with the same three fields are one (R70). -/
theorem word_ext_fields {w v : Word} (hrsv : rsvField w = rsvField v) (hg : gField w = gField v)
    (hop : opField w = opField v) : w = v :=
  BitVec.eq_of_toNat_eq (by rw [word_eq_fields w, word_eq_fields v, hrsv, hg, hop])

theorem encode_fields (i : Instr) :
    rsvField (encode i) = 0 ∧ gField (encode i) = gOf i ∧ opField (encode i) = opcodeOf i := by
  cases i <;> decide

theorem decode_encode (i : Instr) : decode (encode i) = .legal i := by
  cases i <;> rfl

/-- Read backwards, the opcode map gives the OP and the G of the command, where G is set with OP 0x07 alone (R71, R72). -/
theorem fields_of_decodeOp_legal {op : Nat} {g : BitVec 1} {i : Instr} (hg : ¬(g = 1 ∧ op ≠ 0x07))
    (h : decodeOp op g = .legal i) : g = gOf i ∧ op = (opcodeOf i).toNat := by
  have hle : op ≤ 0x0A := by
    by_contra hgt
    rw [decodeOp_opcodeReserved (by omega)] at h
    cases h
  rcases BitVec.eq_zero_or_eq_one g with rfl | rfl
  · interval_cases op <;> cases h <;> exact ⟨rfl, rfl⟩
  · obtain rfl : op = 0x07 := by_contra fun hne => hg ⟨rfl, hne⟩
    cases h
    exact ⟨rfl, rfl⟩

/-- A word that decodes to a command has that command's fields. -/
theorem fields_of_decode_legal {w : Word} {i : Instr} (h : decode w = .legal i) :
    rsvField w = 0 ∧ gField w = gOf i ∧ opField w = opcodeOf i := by
  unfold decode at h
  split at h
  case isTrue => cases h
  case isFalse hrsv =>
    split at h
    case isTrue => cases h
    case isFalse hflag =>
      have hop7 : (opField w).toNat ≠ 0x07 ↔ opField w ≠ 0x07 := BitVec.toNat_ne_iff_ne (y := 0x07#8)
      obtain ⟨hg, hop⟩ := fields_of_decodeOp_legal (by rwa [hop7]) h
      exact ⟨not_not.mp hrsv, hg, BitVec.eq_of_toNat_eq hop⟩

/-- Settles O2: a word that decodes to i has the fields of i's word, and i's word decodes to i. -/
theorem decodeAcceptsExactlyTheEncodings : Obligations.DecodeAcceptsExactlyTheEncodings := by
  intro w i
  constructor
  · intro h
    obtain ⟨hrsv, hg, hop⟩ := fields_of_decode_legal h
    obtain ⟨hrsv', hg', hop'⟩ := encode_fields i
    exact word_ext_fields (hrsv.trans hrsv'.symm) (hg.trans hg'.symm) (hop.trans hop'.symm)
  · rintro rfl
    exact decode_encode i

/-- Settles O1: the command words are the encodings; the illegal ones are evaluated. -/
theorem commandWordsDecode : Obligations.CommandWordsDecode :=
  ⟨decode_encode .hasha, decode_encode .hashb, decode_encode .hashc, decode_encode .rsta, decode_encode .rstb,
    decode_encode .rstc, decode_encode .enc, decode_encode .encG, decode_encode .dec, decode_encode .stretch,
    decode_encode .derive, rfl, rfl, rfl, rfl, rfl, rfl⟩

end Sys2Proof

/-! The invariant (10_state.md R26, R30, R49, 20_memory.md R51): each operation on the state keeps it, and every step is one
of them. -/

namespace Sys2Proof.Machine

theorem inv_iff (s : State) :
    s.Inv = true ↔ s.params.wf = true ∧ Memory.wf s.params.memSize s.mem = true ∧ statusCoherent s = true ∧
      resLenCoherent s = true := by
  simp only [State.Inv, Bool.and_eq_true, and_assoc]

theorem resLenCoherent_iff (s : State) :
    resLenCoherent s = true ↔
      s.resLen.toNat ≤ s.params.memSize ∧ (s.status = 0 ∨ statusERR s.status = true → s.resLen = 0) := by
  simp only [resLenCoherent, Bool.and_eq_true, decide_eq_true_eq, Bool.or_eq_true, Bool.not_eq_true',
    ← Bool.not_eq_true, beq_iff_eq, imp_iff_not_or]

/-- With RES_LEN 0, RES_LEN is coherent whatever STATUS is. -/
theorem resLenCoherent_of_zero {s : State} (h : s.resLen = 0) : resLenCoherent s = true := by
  rw [resLenCoherent_iff, h]
  exact ⟨Nat.zero_le _, fun _ => rfl⟩

section

variable {s : State}

theorem hardReset_inv (h : s.Inv = true) : (hardReset s).Inv = true := by
  obtain ⟨hp, -, -, -⟩ := (inv_iff s).mp h
  exact (inv_iff _).mpr ⟨hp, rfl, rfl, resLenCoherent_of_zero rfl⟩

theorem accept_inv (w : Word) (h : s.Inv = true) : (accept w s).Inv = true := by
  obtain ⟨hp, hm, -, hr⟩ := (inv_iff s).mp h
  obtain ⟨hle, -⟩ := (resLenCoherent_iff s).mp hr
  have hbusy : ¬(statusBusy = 0 ∨ statusERR statusBusy = true) := by decide
  exact (inv_iff _).mpr ⟨hp, hm, rfl, (resLenCoherent_iff _).mpr ⟨hle, fun h => absurd h hbusy⟩⟩

theorem memWrite_inv {a : Nat} {b : Bytes} (ha : a + b.length ≤ s.params.memSize) (h : s.Inv = true) :
    (memWrite a b s).Inv = true := by
  obtain ⟨hp, hm, hs, hr⟩ := (inv_iff s).mp h
  exact (inv_iff _).mpr ⟨hp, writeBytes_wf hm ha, hs, hr⟩

/-- STATUS after an error is one of the idle values, for every error but the reserved one (R26, R205). -/
theorem statusIdleLegal_statusError {e : ErrorCode} (he : e ≠ .encodingError) : statusIdleLegal (statusError e) = true := by
  revert he
  cases e <;> decide

theorem raiseError_inv {e : ErrorCode} (he : e ≠ .encodingError) (h : s.Inv = true) : (raiseError e s).Inv = true := by
  obtain ⟨hp, hm, -, -⟩ := (inv_iff s).mp h
  exact (inv_iff _).mpr ⟨hp, hm, statusIdleLegal_statusError he, resLenCoherent_of_zero rfl⟩

/-- Completing keeps the invariant where the result fits MEM (R55), so that its length fits RES_LEN. -/
theorem complete_inv {n : Nat} (hn : n ≤ s.params.memSize) (h : s.Inv = true) : (complete n s).Inv = true := by
  obtain ⟨hp, hm, -, -⟩ := (inv_iff s).mp h
  have hlen : (BitVec.ofNat 32 n).toNat ≤ s.params.memSize := (Nat.mod_le n _).trans hn
  have hdone : ¬(statusDone = 0 ∨ statusERR statusDone = true) := by decide
  exact (inv_iff _).mpr ⟨hp, hm, rfl, (resLenCoherent_iff _).mpr ⟨hlen, fun h => absurd h hdone⟩⟩

end

theorem errorsOf_ne_encodingError {i : Instr} {e : ErrorCode} (he : e ∈ errorsOf i) : e ≠ .encodingError := by
  rintro rfl
  cases i <;> simp [errorsOf] at he

theorem hostOp_inv {op : HostOp} {s t : State} (h : s.Inv = true) (ht : hostOp op s = .next t) : t.Inv = true := by
  rcases hostOp_cases ht with ⟨live, rfl⟩ | ⟨host, rfl⟩ | ⟨-, ⟨w, rfl⟩ | ⟨a, b, ha, rfl⟩⟩
  · exact h
  · exact h
  · exact accept_inv w h
  · exact memWrite_inv ha h

theorem exec_inv {i : Instr} {s t : State} (h : s.Inv = true) (ht : exec i s = .next t) : t.Inv = true := by
  obtain ⟨c, -, ⟨e, ent, he, -, rfl⟩ | ⟨m, ent, hlen, hmem, -, -, rfl⟩⟩ := exec_cases ht
  · exact raiseError_inv (errorsOf_ne_encodingError he) h
  · obtain ⟨hp, hm, hs, hr⟩ := (inv_iff s).mp h
    exact complete_inv hlen ((inv_iff _).mpr ⟨hp, hmem hm, hs, hr⟩)

/-- Settles O18: what a step can do, operation by operation; using up a turn changes nothing the invariant speaks of. -/
theorem stepKeepsInv : Obligations.StepKeepsInv := by
  intro s t h ht
  have hpop : (popSched s).Inv = true := h
  rcases step_cases ht with rfl | ⟨-, op, -, hop⟩ | ⟨-, c, -, ⟨i, -, hexec⟩ | ⟨why, -, rfl⟩⟩ | ⟨-, rfl⟩
  · exact hpop
  · exact hostOp_inv (s := hostNext (popSched s)) hpop hop
  · exact exec_inv hpop hexec
  · exact raiseError_inv (by decide) hpop
  · exact hardReset_inv hpop

theorem afterReset_inv {p : Params} (hp : p.wf = true) : (State.afterReset p).Inv = true :=
  (inv_iff _).mpr ⟨hp, reset_mem_wf p, rfl, resLenCoherent_of_zero rfl⟩

/-- Settles O17: the reset state is idle with empty MEM; the reference parameters keep the bounds of R7. -/
theorem invHoldsAfterReset : Obligations.InvHoldsAfterReset :=
  ⟨fun _ hp => afterReset_inv hp, afterReset_inv (by decide)⟩

end Sys2Proof.Machine

/-! Host accesses while nothing is pending (10_state.md R23, 20_memory.md R51, R52) and the poll loop
(30_encoding.md R78). -/

namespace Sys2Proof.Machine

/-- Settles O7: each offset is a register's, and reads as that register does. -/
theorem registerMapReads : Obligations.RegisterMapReads := by
  intro s
  exact ⟨rfl, rfl, rfl, rfl, rfl, rfl, rfl, rfl, rfl, rfl, rfl, rfl, rfl, rfl, rfl, rfl, rfl, rfl, rfl, rfl, rfl, rfl,
    rfl, rfl⟩

/-- A write to a register is seen at that register alone, but for A_SIZE, which OSIZE_A reads too (R41): one case for each
pair of registers in R23's map. -/
theorem readReg_writeRegs_of_ne {r r' : Reg} (hne : r' ≠ r) (hsize : ¬(r = .A_SIZE ∧ r' = .OSIZE_A)) (v : Word)
    (s : State) : readReg { s with regs := writeRegs r v s.regs } r' = readReg s r' := by
  cases r <;> cases r' <;> first | rfl | exact absurd rfl hne | exact absurd ⟨rfl, rfl⟩ hsize

/-- Settles O8: the write goes to the live registers (R24). -/
theorem registerWriteReadsBack : Obligations.RegisterWriteReadsBack := by
  intro s r v hr
  refine ⟨_, hostOp_writeReg_readWrite hr v s, ?_, fun r' hne hsize => readReg_writeRegs_of_ne hne hsize v s, ?_, rfl⟩
  · rw [readOffset_offset, readReg_writeRegs v s hr]
  · rintro rfl
    rfl

theorem hostMemLegal_beyond {s : State} {a : Nat} (ha : s.params.memSize ≤ a) : hostMemLegal s a = false := by
  simp [hostMemLegal, ha.not_gt]

theorem hostOp_writeMem_idle {s : State} {a : Nat} (hidle : statusBUSY s.status = false) (ha : a < s.params.memSize)
    (b : Byte) : hostOp (.writeMem a b) s = .next (memWrite a [b] s) := by
  simp [hostOp, hostMemLegal_idle hidle ha]

theorem readBytes_one {m : Memory} {a : Nat} {x : Byte} (h : readByte m a = some x) : readBytes m a 1 = some [x] := by
  simp [readBytes, h]

theorem hostOp_readMem_written {s : State} {a : Nat} {x : Byte} (hidle : statusBUSY s.status = false)
    (ha : a < s.params.memSize) (hx : readByte s.mem a = some x) (v : Nat) :
    hostOp (.readMem a v) s = .next (hostAssign v (.bytes (varBytes s.host.vars v ++ [x])) s) := by
  simp only [hostOp, hostMemLegal_idle hidle ha, if_true]
  exact memRead_some (readBytes_one hx) _

/-- Settles O9: below MEM_SIZE the access is the operation on MEM, beyond it the access is not legal. -/
theorem hostMemoryAccess : Obligations.HostMemoryAccess := by
  intro s a v b hidle
  refine ⟨fun ha => ⟨⟨memWrite a [b] s, hostOp_writeMem_idle hidle ha b, ?_, fun x hx => ?_, rfl⟩, fun x hx => ?_,
    fun hun => hostOp_readMem_unwritten hidle ha hun v⟩, fun ha => ?_⟩
  · exact readByte_writeBytes_inside s.mem a [b] 0 Nat.one_pos
  · exact readByte_writeBytes_outside s.mem a [b] x hx
  · exact ⟨_, hostOp_readMem_written hidle ha hx v, rfl, rfl⟩
  · simp [hostOp, hostMemLegal_beyond ha]

@[simp] theorem lookupVar_assignVar_same (vars : List (Nat × HostVal)) (t : Nat) (v : HostVal) :
    lookupVar (assignVar vars t v) t = some v := by
  simp [assignVar, lookupVar]

theorem varNumber_assignVar_word (vars : List (Nat × HostVal)) (t : Nat) (w : Word) :
    varNumber (assignVar vars t (.word w)) t = w.toNat := by
  simp [varNumber]

/-- `t & 0x1` of a STATUS read is its BUSY bit (R26). -/
theorem and_one_ne_zero_iff_busy (w : Word) : w.toNat &&& 0x1 ≠ 0 ↔ statusBUSY w = true := by
  rw [statusBUSY, BitVec.getLsbD, Nat.testBit_zero, Nat.and_one_is_mod]
  simp

theorem hostOp_bnz (t mask target : Nat) (s : State) :
    hostOp (.bnz t mask target) s =
      .next (hostGo (if varNumber s.host.vars t &&& mask ≠ 0 then target else s.host.pos) s) := by
  simp only [hostOp]
  split <;> rfl

/-- Settles O11: the branch looks at the STATUS that the read assigned, and assigns nothing. -/
theorem pollEndsWithFinalStatus : Obligations.PollEndsWithFinalStatus := by
  intro s at0 t
  refine ⟨_, _, hostOp_readReg .STATUS t s, hostOp_bnz t 0x1 at0 _, lookupVar_assignVar_same _ _ _, rfl, ?_⟩
  simp only [hostGo_host, hostAssign_host, varNumber_assignVar_word, and_one_ne_zero_iff_busy, readReg]

end Sys2Proof.Machine

/-! Turns (10_state.md R20, 30_encoding.md R82, 70_reset_and_hazards.md R241): step is the turn of the agent that moves
next, and what each agent's turn changes. -/

namespace Sys2Proof.Machine

theorem step_of_nextAgent {s : State} {a : Agent} (h : nextAgent s = a) : step s = turn a (popSched s) := by
  rw [step, h]

theorem nextAgent_nil {s : State} {c : Snapshot} (hc : s.pending = some c) (h : s.sched = []) :
    nextAgent s = .unit := by
  simp [nextAgent, h, hc]

theorem nextAgent_cons {s : State} {a : Agent} {rest : List Agent} (h : s.sched = a :: rest) : nextAgent s = a := by
  simp [nextAgent, h]

theorem unitTurn_legal {s : State} {c : Snapshot} {i : Instr} (hc : s.pending = some c)
    (hi : decode c.word = .legal i) : unitTurn s = exec i s := by
  simp only [unitTurn, hc, hi]

/-- Settles O14: the unit's turn on the state with the turn used up. -/
theorem stepRunsTheDecodedCommand : Obligations.StepRunsTheDecodedCommand := by
  intro s c hc
  have hpop : (popSched s).pending = some c := hc
  refine ⟨fun i hturn hi => ?_, fun why hturn hw => ?_, nextAgent_nil hc, fun a rest => nextAgent_cons⟩
  · exact (step_of_nextAgent hturn).trans (unitTurn_legal hpop hi)
  · exact ⟨_, (step_of_nextAgent hturn).trans (unitTurn_illegal hpop hw),
      raiseError_endsInError (popSched s) .illegalCommand, rfl, rfl⟩

theorem hostTurn_op {s : State} {op : HostOp} (h : s.host.prog[s.host.pos]? = some op) :
    hostTurn s = hostOp op (hostNext s) := by
  simp only [hostTurn, h]

theorem hostTurn_pastEnd {s : State} (h : s.host.prog[s.host.pos]? = none) : hostTurn s = .next s := by
  simp only [hostTurn, h]

/-- Settles O15: the host's turn on the state with the turn used up. -/
theorem stepRunsTheHostProgram : Obligations.StepRunsTheHostProgram := by
  intro s hturn
  exact ⟨fun op hop => (step_of_nextAgent hturn).trans (hostTurn_op (s := popSched s) hop),
    fun hend => (step_of_nextAgent hturn).trans (hostTurn_pastEnd (s := popSched s) (List.getElem?_eq_none hend))⟩

/-! ## A pending command gets its turn -/

/-- While a command is pending, a host turn goes on or is HostProtocol. -/
theorem hostTurn_busy_cases {s : State} (hb : statusBUSY s.status = true) :
    hostTurn s = .fault .hostProtocol ∨ ∃ t, hostTurn s = .next t := by
  cases hop : s.host.prog[s.host.pos]? with
  | none => exact .inr ⟨s, hostTurn_pastEnd hop⟩
  | some op =>
    rw [hostTurn_op hop]
    exact hostOp_busy op hb

/-- From s, k host turns lead to t, with the pending command, STATUS, the parameters, MEM and the entropy source of s, and
in t it is the unit's turn, or the host's to make an access that is HostProtocol. -/
def ReachesTurn (k : Nat) (s t : State) : Prop :=
  core.run k s = .next t ∧ (∀ j v, j < k → core.run j s = .next v → nextAgent v = .host) ∧
    t.pending = s.pending ∧ t.status = s.status ∧ t.params = s.params ∧ t.mem = s.mem ∧ t.entropy = s.entropy ∧
    (nextAgent t = .unit ∨ (k < s.sched.length ∧ nextAgent t = .host ∧ step t = .fault .hostProtocol))

theorem reachesTurn_zero {s : State}
    (h : nextAgent s = .unit ∨ (0 < s.sched.length ∧ nextAgent s = .host ∧ step s = .fault .hostProtocol)) :
    ReachesTurn 0 s s :=
  ⟨rfl, fun _ _ hj => absurd hj (Nat.not_lt_zero _), rfl, rfl, rfl, rfl, rfl, h⟩

/-- One more host turn in front. -/
theorem reachesTurn_succ {k : Nat} {s u t : State} (hb : statusBUSY s.status = true) (hturn : nextAgent s = .host)
    (hlen : s.sched.length = u.sched.length + 1) (hu : hostTurn (popSched s) = .next u) (h : ReachesTurn k u t) :
    ReachesTurn (k + 1) s t := by
  obtain ⟨hrun, hhost, hpending, hstatus, hparams, hmem, hentropy, hend⟩ := h
  obtain ⟨hpending', hstatus', -, hparams', hmem', hentropy', -⟩ := hostTurn_busy (s := popSched s) hb hu
  have hstep : step s = .next u := (step_of_nextAgent hturn).trans hu
  refine ⟨(core_run_succ_of_next hstep).trans hrun, fun j v hj hv => ?_, hpending.trans hpending',
    hstatus.trans hstatus', hparams.trans hparams', hmem.trans hmem', hentropy.trans hentropy',
    hend.imp_right fun ⟨hlt, hfault⟩ => ⟨by omega, hfault⟩⟩
  cases j with
  | zero =>
    cases hv
    exact hturn
  | succ j => exact hhost j v (by omega) ((core_run_succ_of_next hstep).symm.trans hv)

/-- By induction on the schedule: a host entry is used up by a turn that keeps the command pending, or stops it. -/
theorem reachesTurn_of_pending {s : State} {c : Snapshot} (hc : s.pending = some c)
    (hb : statusBUSY s.status = true) (hreset : Agent.reset ∉ s.sched) :
    ∃ k t, k ≤ s.sched.length ∧ ReachesTurn k s t := by
  induction hsched : s.sched generalizing s with
  | nil => exact ⟨0, s, Nat.zero_le _, reachesTurn_zero (.inl (nextAgent_nil hc hsched))⟩
  | cons a rest ih =>
    have hnext : nextAgent s = a := nextAgent_cons hsched
    cases a with
    | reset => exact absurd (hsched ▸ List.mem_cons_self) hreset
    | unit => exact ⟨0, s, Nat.zero_le _, reachesTurn_zero (.inl hnext)⟩
    | host =>
      rcases hostTurn_busy_cases (s := popSched s) hb with hfault | ⟨u, hu⟩
      · have hpos : 0 < s.sched.length := by simp [hsched]
        exact ⟨0, s, Nat.zero_le _, reachesTurn_zero (.inr ⟨hpos, hnext, (step_of_nextAgent hnext).trans hfault⟩)⟩
      · obtain ⟨hpending, hstatus, -, -, -, -, husched⟩ := hostTurn_busy (s := popSched s) hb hu
        have hurest : u.sched = rest := by rw [husched, popSched_sched, hsched, List.tail_cons]
        have hureset : Agent.reset ∉ u.sched := fun hmem => hreset (by
          rw [hsched]
          exact List.mem_cons_of_mem _ (hurest ▸ hmem))
        obtain ⟨k, t, hk, ht⟩ := ih (hpending.trans hc) (hstatus ▸ hb) hureset hurest
        exact ⟨k + 1, t, Nat.succ_le_succ hk, reachesTurn_succ hb hnext (by simp [hsched, hurest]) hu ht⟩

/-- Settles O16, by induction on the schedule. -/
theorem pendingCommandGetsItsStep : Obligations.PendingCommandGetsItsStep := by
  intro s c hc hb hreset
  obtain ⟨k, t, hk, hrun, hhost, hpending, hkept⟩ := reachesTurn_of_pending hc hb hreset
  exact ⟨k, t, hk, hrun, hhost, hpending.trans hc, hkept⟩

/-! ## What each agent's turn changes -/

/-- The unit's turn, by its outcome: nothing while idle, else the pending command ends in an error or completes. -/
theorem unitTurn_cases {s t : State} (h : unitTurn s = .next t) :
    (s.pending = none ∧ t = s) ∨
    (s.pending ≠ none ∧
      ((∃ e ent, e ≠ .encodingError ∧ t = raiseError e { s with entropy := ent }) ∨
        ∃ n m ent, t = complete n { s with mem := m, entropy := ent })) := by
  cases hc : s.pending with
  | none =>
    simp only [unitTurn, hc, Host.Outcome.next.injEq] at h
    exact .inl ⟨rfl, h.symm⟩
  | some c =>
    refine .inr ⟨Option.some_ne_none c, ?_⟩
    cases hw : decode c.word with
    | legal i =>
      rw [unitTurn_legal hc hw] at h
      obtain ⟨_, -, ⟨e, ent, he, -, rfl⟩ | ⟨m, ent, -, -, -, -, rfl⟩⟩ := exec_cases h
      · exact .inl ⟨e, ent, errorsOf_ne_encodingError he, rfl⟩
      · exact .inr ⟨_, m, ent, rfl⟩
    | illegal why =>
      rw [unitTurn_illegal hc hw, Host.Outcome.next.injEq] at h
      exact .inl ⟨.illegalCommand, s.entropy, by decide, h.symm⟩

/-- The host's turn, by what it leaves: the host's own fields and the live registers, but for an acceptance or a byte written
while nothing is pending. -/
theorem hostTurn_cases {s t : State} (h : hostTurn s = .next t) :
    (∃ live host, t = { s with regs := live, host := host }) ∨
    (statusBUSY s.status = false ∧
      ((∃ w host, t = accept w { s with host := host }) ∨ ∃ m host, t = { s with mem := m, host := host })) := by
  cases hop : s.host.prog[s.host.pos]? with
  | none =>
    rw [hostTurn_pastEnd hop, Host.Outcome.next.injEq] at h
    exact .inl ⟨s.regs, s.host, h.symm⟩
  | some op =>
    rw [hostTurn_op hop] at h
    rcases hostOp_cases h with ⟨live, rfl⟩ | ⟨host, rfl⟩ | ⟨hidle, ⟨w, rfl⟩ | ⟨a, b, -, rfl⟩⟩
    · exact .inl ⟨live, _, rfl⟩
    · exact .inl ⟨s.regs, host, rfl⟩
    · exact .inr ⟨hidle, .inl ⟨w, _, rfl⟩⟩
    · exact .inr ⟨hidle, .inr ⟨_, _, rfl⟩⟩

theorem statusError_mem {e : ErrorCode} (he : e ≠ .encodingError) :
    statusError e ∈ ([0x106, 0x206, 0x406, 0x506, 0x606, 0x706] : List Word) := by
  revert he
  cases e <;> decide

/-- Settles O20: the agent that moves next decides, and its turn is one of the cases above. -/
theorem onlyTheseStepsChangeTheBlock : Obligations.OnlyTheseStepsChangeTheBlock := by
  intro s t ht
  cases hturn : nextAgent s with
  | host =>
    rw [step_of_nextAgent hturn] at ht
    rcases hostTurn_cases ht with ⟨live, host, rfl⟩ | ⟨hidle, ⟨w, host, rfl⟩ | ⟨m, host, rfl⟩⟩
    · exact ⟨rfl, rfl, fun _ => ⟨rfl, rfl, .inl ⟨rfl, rfl⟩, fun _ => rfl⟩, nofun, nofun⟩
    · exact ⟨rfl, rfl, fun _ => ⟨rfl, rfl, .inr ⟨hidle, rfl, rfl, rfl, w, rfl⟩, fun _ => rfl⟩, nofun, nofun⟩
    · have hnotBusy : statusBUSY s.status ≠ true := ne_true_of_eq_false hidle
      exact ⟨rfl, rfl, fun _ => ⟨rfl, rfl, .inl ⟨rfl, rfl⟩, fun hb => absurd hb hnotBusy⟩, nofun, nofun⟩
  | unit =>
    rw [step_of_nextAgent hturn] at ht
    rcases unitTurn_cases ht with ⟨hc, rfl⟩ | ⟨hc, ⟨e, ent, he, rfl⟩ | ⟨n, m, ent, rfl⟩⟩
    · exact ⟨rfl, rfl, nofun, fun _ => ⟨rfl, rfl, fun _ => ⟨rfl, rfl, hc, rfl, rfl⟩, fun h => absurd hc h⟩, nofun⟩
    · exact ⟨rfl, rfl, nofun, fun _ => ⟨rfl, rfl, fun h => absurd h hc,
        fun _ => ⟨rfl, .inr ⟨rfl, rfl, statusError_mem he⟩⟩⟩, nofun⟩
    · exact ⟨rfl, rfl, nofun, fun _ => ⟨rfl, rfl, fun h => absurd h hc, fun _ => ⟨rfl, .inl rfl⟩⟩, nofun⟩
  | reset =>
    rw [step_of_nextAgent hturn, turn_reset, Host.Outcome.next.injEq] at ht
    subst ht
    exact ⟨rfl, rfl, nofun, nofun, fun _ => ⟨rfl, rfl, rfl, rfl, hardReset_unwritten _, rfl, rfl⟩⟩

end Sys2Proof.Machine

/-! All commands (30_encoding.md R84, R85, 60_exceptions.md R203, R206): how each ends, what it leaves unchanged,
and how long its result is. -/

namespace Sys2Proof.Machine

theorem raisedBy_endsInError {i : Instr} {s t : State} (h : RaisedBy i s t) :
    ∃ e ∈ errorsOf i, EndsInError (errorNumber e) s t ∧ t.mem = s.mem := by
  obtain ⟨e, ent, he, -, rfl⟩ := h
  exact ⟨e, he, raiseError_endsInError { s with entropy := ent } e, rfl⟩

theorem completedBy_endsComplete {i : Instr} {r : Regs} {s t : State} (h : CompletedBy i r s t) :
    EndsComplete (resultLength i r) s t := by
  obtain ⟨m, ent, -, -, -, -, rfl⟩ := h
  exact complete_endsComplete { s with mem := m, entropy := ent } _

/-- Settles O21: the two cases of `exec_cases`. -/
theorem commandEndsInCompleteOrRaise : Obligations.CommandEndsInCompleteOrRaise := by
  intro i s t h
  obtain ⟨c, hc, hraised | hcompleted⟩ := exec_cases h
  · exact ⟨c, hc, .inr (raisedBy_endsInError hraised)⟩
  · exact ⟨c, hc, .inl (completedBy_endsComplete hcompleted)⟩

/-- Settles O22: an error changes no MEM byte, and a completion none outside its output. -/
theorem commandFrame : Obligations.CommandFrame := by
  intro i s t c hc h
  obtain ⟨c', hc', hends⟩ := exec_cases h
  obtain rfl : c' = c := Option.some.inj (hc'.symm.trans hc)
  rcases hends with ⟨e, ent, -, hent, rfl⟩ | ⟨m, ent, -, -, hmem, hent, rfl⟩
  · exact ⟨⟨rfl, rfl, rfl, rfl⟩, hent, fun x _ _ => rfl⟩
  · exact ⟨⟨rfl, rfl, rfl, rfl⟩, hent, hmem⟩

/-- A command that ends with STATUS 0x2 completed: its RES_LEN is its result length, and the live registers stay. -/
theorem exec_done {i : Instr} {s t : State} {c : Snapshot} (hc : s.pending = some c) (h : exec i s = .next t)
    (hdone : t.status = 0x2) : t.resLen = BitVec.ofNat 32 (resultLength i c.regs) ∧ t.regs = s.regs := by
  obtain ⟨c', hc', hends⟩ := exec_cases h
  obtain rfl : c' = c := Option.some.inj (hc'.symm.trans hc)
  rcases hends with ⟨e, ent, -, -, rfl⟩ | ⟨m, ent, -, -, -, -, rfl⟩
  · exact absurd hdone (statusError_ne_done e)
  · exact ⟨rfl, rfl⟩

/-- Settles O52: the result length of each hash command is what its OSIZE register reads as. -/
theorem hashLengthIsOutputSize : Obligations.HashLengthIsOutputSize := by
  intro s t c hc hdone
  refine ⟨fun h hsize => ?_, fun h => ?_, fun h => ?_⟩
  · obtain ⟨hlen, hregs⟩ := exec_done hc h hdone
    calc t.resLen
        = BitVec.ofNat 32 c.regs.aSize.toNat := hlen
      _ = c.regs.aSize := by rw [BitVec.ofNat_toNat, BitVec.setWidth_eq]
      _ = t.regs.aSize := by rw [hregs, hsize]
  · exact (exec_done hc h hdone).1
  · exact (exec_done hc h hdone).1

theorem exec_rstc {s : State} {c : Snapshot} (hc : s.pending = some c) : exec .rstc s = .next (complete 0 s) :=
  withCommand_some hc fun _ => .next (complete 0 s)

/-- Settles O47: RSTC is `complete(0)`, after which every command runs as before it. -/
theorem rstcOnlyCompletes : Obligations.RstcOnlyCompletes :=
  ⟨rfl, fun s _ hc => ⟨complete 0 s, exec_rstc hc, complete_endsComplete s 0, complete_mem s 0, complete_entropy s 0,
    fun c2 u hu => ⟨u, (exec_after_complete .hashc 0 s (some c2)).trans hu, rfl, rfl, rfl⟩⟩⟩

/-! ## The entropy source -/

theorem entropyDraw_fails {n : Nat} {e : EntropySource} {rest : List EntropyAnswer} (h : e.answers = .fails :: rest) :
    entropyDraw n e = (none, ⟨rest, e.drawn + 1⟩) := by
  simp only [entropyDraw, h]

theorem entropyDraw_returns {n : Nat} {e : EntropySource} {b : Bytes} {rest : List EntropyAnswer}
    (h : e.answers = .returns b :: rest) :
    entropyDraw n e = (some (drawnBytes e.drawn n b), ⟨rest, e.drawn + 1⟩) := by
  simp only [entropyDraw, h]

/-- A draw uses up one listed answer and counts one draw, whatever it answers. -/
theorem entropyDraw_source (n : Nat) (e : EntropySource) :
    (entropyDraw n e).2 = ⟨e.answers.tail, e.drawn + 1⟩ := by
  cases h : e.answers with
  | nil => simp only [entropyDraw, h, List.tail_nil]
  | cons answer rest =>
    cases answer with
    | fails => rw [entropyDraw_fails h, List.tail_cons]
    | returns b => rw [entropyDraw_returns h, List.tail_cons]

/-- Settles O42: the answer is the head of the list, or a free one of the length asked for. -/
theorem entropyDrawAnswers : Obligations.EntropyDrawAnswers := by
  intro n e
  refine ⟨?_, congrArg _ (entropyDraw_source n e), congrArg _ (entropyDraw_source n e),
    fun rest h => congrArg Prod.fst (entropyDraw_fails h), fun b rest h hlen => ?_⟩
  · cases h : (entropyDraw n e).1 with
    | none => exact .inl rfl
    | some b => exact .inr ⟨b, rfl, entropyDraw_length (Prod.ext h rfl)⟩
  · subst hlen
    rw [entropyDraw_returns h, drawnBytes_of_length]

end Sys2Proof.Machine

/-! The constructions' inferences: magic 0 erases the input (41_hash_b.md R127), and a round of Construction C is injective
(42_hash_c.md R147). -/

namespace Sys2Proof.Machine

/-! ## Construction B with magic 0 -/

/-- With magic 0 the multiplication of R123 erases the word. -/
theorem wordB_zero (w : Word) : wordB 0 w = 0 := by
  simp [wordB_eq, BitVec.rotateLeft_eq_rotateLeftAux_of_lt, BitVec.rotateLeftAux]

theorem wordsB_zero (k : Nat) (buf : Bytes) :
    wordsB 0 k buf = List.replicate (4 * k) 0 ++ buf.drop (4 * k) := by
  induction k generalizing buf with
  | zero => simp [wordsB]
  | succ k ih =>
    have hword : le32 0 = List.replicate 4 0 := rfl
    rw [wordsB, wordB_zero, ih, hword, ← List.append_assoc, List.replicate_append_replicate, List.drop_drop,
      Nat.mul_succ, Nat.add_comm]

theorem wordsB_zero_of_length {buf : Bytes} (h : buf.length = 16) : wordsB 0 4 buf = List.replicate 16 0 := by
  rw [wordsB_zero, List.drop_of_length_le h.le, List.append_nil]

/-- Settles O35: the word stage leaves zeros, so the final pass rotates the stream's bytes alone. -/
theorem zeroMagicErasesInput : Obligations.ZeroMagicErasesInput := by
  intro c data
  obtain ⟨-, hlen, hbytes⟩ := finalPassB c 0 data
  have hseed : (0 : Word).setWidth 64 = (0 : U64) := rfl
  have hbuf : (absorbB data 0 (initB 0) (streamInit c 0)).1.length = 16 :=
    (absorbB_length _ _ _ _).trans (initB_length 0)
  refine List.ext_getElem? fun j => ?_
  by_cases hj : j < 16
  · rw [hbytes j hj, hseed, wordsB_zero_of_length hbuf, List.getElem?_replicate_of_lt hj, List.getElem?_map,
      List.getElem?_range hj]
    simp
  · rw [List.getElem?_eq_none (by omega), List.getElem?_eq_none (by simp; omega)]

/-! ## A round of Construction C -/

/-- A pass is injective for fixed stream bytes where its step is, for each stream byte. -/
theorem mapWithStream_injective {f : Byte → Byte → Byte} (hf : ∀ r, Function.Injective fun b => f b r) {b1 b2 : Bytes}
    {st : Stream} (h : (mapWithStream f b1 st).1 = (mapWithStream f b2 st).1) : b1 = b2 := by
  refine List.ext_getElem? fun j => Option.map_injective (hf (nthByte st j)) ?_
  rw [← mapWithStream_getElem?, ← mapWithStream_getElem?, h]

theorem forwardFrom_injective (x : Byte) : Function.Injective (forwardFrom x) := by
  intro b1 b2 h
  induction b1 generalizing x b2 with
  | nil =>
    cases b2 with
    | nil => rfl
    | cons d2 rest2 => cases h
  | cons d rest ih =>
    cases b2 with
    | nil => cases h
    | cons d2 rest2 =>
      obtain ⟨hd, hrest⟩ := List.cons.inj h
      obtain rfl : d = d2 := (BitVec.xor_left_inj x).mp hd
      rw [ih _ hrest]

theorem forwardDiffusion_injective : Function.Injective forwardDiffusion := by
  intro b1 b2 h
  rw [forwardDiffusion_eq_forwardFrom, forwardDiffusion_eq_forwardFrom] at h
  exact forwardFrom_injective 0 h

theorem backwardDiffusion_injective : Function.Injective backwardDiffusion := by
  intro b1 b2 h
  induction b1 generalizing b2 with
  | nil =>
    cases b2 with
    | nil => rfl
    | cons d2 rest2 =>
      rw [backwardDiffusion_cons] at h
      cases h
  | cons d rest ih =>
    cases b2 with
    | nil =>
      rw [backwardDiffusion_cons] at h
      cases h
    | cons d2 rest2 =>
      rw [backwardDiffusion_cons, backwardDiffusion_cons] at h
      obtain ⟨hd, hrest⟩ := List.cons.inj h
      obtain rfl : rest = rest2 := ih hrest
      rw [(BitVec.xor_left_inj _).mp hd]

theorem rotateRight_rotateLeft_three : Function.LeftInverse (fun x : Byte => x.rotateRight 3) fun x => x.rotateLeft 3 := by
  intro x
  ext i hi
  by_cases h : i < 5
  · simp [h]
  · have h3 : i - 5 < 3 := by omega
    have hi5 : 5 + (i - 5) = i := by omega
    simp [h, h3, hi5]

theorem scrambleByte_injective (r : Byte) : Function.Injective fun b => scrambleByte b r := by
  intro b1 b2 h
  simp only [scrambleByte_eq] at h
  exact (BitVec.add_left_inj r).mp (rotateRight_rotateLeft_three.injective h)

/-- The multiplier 0xB5 is odd, and 0x9D is its inverse modulo 256. -/
theorem mul_multiplier_leftInverse : Function.LeftInverse (fun x : Byte => x * 0x9D) fun x => x * 0xB5 := by
  intro x
  have hinverse : (0xB5 : Byte) * 0x9D = 1 := by decide
  simp only [BitVec.mul_assoc, hinverse]
  exact BitVec.mul_one x

theorem avalancheByte_injective (r : Byte) : Function.Injective fun b => avalancheByte b r := by
  intro b1 b2 h
  simp only [avalancheByte_eq] at h
  exact mul_multiplier_leftInverse.injective ((BitVec.xor_left_inj r).mp h)

/-- Settles O40: each of the four passes is injective, and the second half of the stream does not depend on the bytes. -/
theorem roundIsInjective : Obligations.RoundIsInjective := by
  intro b1 b2 st hb1 hb2 h
  rw [roundC_eq_passes, roundC_eq_passes, hb1, hb2] at h
  exact mapWithStream_injective scrambleByte_injective
    (forwardDiffusion_injective (backwardDiffusion_injective (mapWithStream_injective avalancheByte_injective h)))

end Sys2Proof.Machine

/-! DERIVE (44_key_stretch.md section 2): the checks of a rule on any number of regions, and then the two reads. -/

namespace Sys2Proof.Machine

/-- Every region (a, n) of the list lies in MEM (R55). -/
def RegionsInMem (s : State) (regions : List (Nat × Nat)) : Prop := ∀ p ∈ regions, p.1 + p.2 ≤ s.params.memSize

/-- A rule's checks on its regions, in the rule's order, before it goes on. -/
def checkRegions (s : State) : List (Nat × Nat) → Out → Out
  | [], go => go
  | p :: rest, go =>
    if !inRange s p.1 p.2 then .next (raiseError .addressError s) else checkRegions s rest go

section

variable {s : State} {regions : List (Nat × Nat)} {go : Out}

theorem checkRegions_inside (h : RegionsInMem s regions) : checkRegions s regions go = go := by
  induction regions with
  | nil => rfl
  | cons p rest ih =>
    obtain ⟨hp, hrest⟩ := List.forall_mem_cons.mp h
    simp [checkRegions, inRange, hp, ih hrest]

theorem checkRegions_outside (h : ¬RegionsInMem s regions) :
    checkRegions s regions go = .next (raiseError .addressError s) := by
  induction regions with
  | nil => exact absurd (fun p hp => nomatch hp) h
  | cons p rest ih =>
    by_cases hp : p.1 + p.2 ≤ s.params.memSize
    · have hrest : ¬RegionsInMem s rest := fun hrest => h (List.forall_mem_cons.mpr ⟨hp, hrest⟩)
      simp [checkRegions, ih hrest]
    · simp [checkRegions, inRange, hp]

end

/-- The regions of DERIVE: password, salt and result. -/
def deriveRegions (r : Regs) : List (Nat × Nat) :=
  [(r.src.toNat, r.srcLen.toNat), (r.aux.toNat, r.auxLen.toNat), (r.dst.toNat, 32)]

/-- DERIVE once its regions are in MEM: password and salt are read, and the stretched result written. -/
def deriveFinish (s : State) (r : Regs) : Out :=
  memRead s r.src.toNat r.srcLen.toNat fun pw => memRead s r.aux.toNat r.auxLen.toNat fun salt =>
    .next (complete 32 (memWrite r.dst.toNat (stretchA s.params.prng (aSeedOf r) 32 10000 (pw ++ salt)) s))

/-- DERIVE looks at SRC_LEN and AUX_LEN before the regions (R183). -/
theorem exec_derive {s : State} {c : Snapshot} (hc : s.pending = some c) :
    exec .derive s =
      if c.regs.srcLen.toNat = 0 ∨ c.regs.auxLen.toNat = 0 then .next (raiseError .invalidInput s)
      else checkRegions s (deriveRegions c.regs) (deriveFinish s c.regs) :=
  withCommand_some hc fun r =>
    if r.srcLen.toNat = 0 ∨ r.auxLen.toNat = 0 then .next (raiseError .invalidInput s)
    else checkRegions s (deriveRegions r) (deriveFinish s r)

theorem exec_derive_invalid {s : State} {c : Snapshot} (hc : s.pending = some c)
    (h : c.regs.srcLen = 0 ∨ c.regs.auxLen = 0) : exec .derive s = .next (raiseError .invalidInput s) :=
  (exec_derive hc).trans (if_pos (h.imp (congrArg BitVec.toNat) (congrArg BitVec.toNat)))

theorem exec_derive_valid {s : State} {c : Snapshot} (hc : s.pending = some c)
    (hpw : c.regs.srcLen ≠ 0) (hsalt : c.regs.auxLen ≠ 0) :
    exec .derive s = checkRegions s (deriveRegions c.regs) (deriveFinish s c.regs) :=
  (exec_derive hc).trans
    (if_neg (not_or_intro (BitVec.toNat_ne_iff_ne.mpr hpw) (BitVec.toNat_ne_iff_ne.mpr hsalt)))

theorem deriveFinish_unwritten {s : State} {r : Regs}
    (h : readBytes s.mem r.src.toNat r.srcLen.toNat = none ∨ readBytes s.mem r.aux.toNat r.auxLen.toNat = none) :
    deriveFinish s r = .fault .unwrittenRead := by
  unfold deriveFinish
  cases hpw : readBytes s.mem r.src.toNat r.srcLen.toNat with
  | none => exact memRead_none hpw _
  | some pw =>
    have hsalt : readBytes s.mem r.aux.toNat r.auxLen.toNat = none := h.resolve_left (by simp [hpw])
    rw [memRead_some hpw, memRead_none hsalt]

theorem deriveFinish_written {s : State} {r : Regs} {pw salt : Bytes}
    (hpw : readBytes s.mem r.src.toNat r.srcLen.toNat = some pw)
    (hsalt : readBytes s.mem r.aux.toNat r.auxLen.toNat = some salt) :
    deriveFinish s r =
      .next (complete 32 (memWrite r.dst.toNat (stretchA s.params.prng (aSeedOf r) 32 10000 (pw ++ salt)) s)) := by
  rw [deriveFinish, memRead_some hpw, memRead_some hsalt]

theorem stretchA_derive_length (c : PrngChoice) (seed : U64) (d : Bytes) : (stretchA c seed 32 10000 d).length = 32 :=
  stretchA_length_of_ne_zero (by decide) c seed 32 d

/-- Settles O51: each clause is one branch of the rule; at least one iteration is made, so the output is 32 bytes. -/
theorem deriveRule : Obligations.DeriveRule := by
  refine ⟨rfl, fun s c hc => ?_⟩
  intro r out inside
  have hregions : inside ↔ RegionsInMem s (deriveRegions r) := by
    simp [inside, RegionsInMem, deriveRegions]
  rw [hregions]
  refine ⟨fun hempty => ?_, fun hpw hsalt hout => ?_, fun hpw hsalt hin hread => ?_,
    fun pw salt hpw hsalt hin hreadPw hreadSalt => ?_⟩
  · exact endsInError_of_raise .invalidInput s.entropy (exec_derive_invalid hc hempty)
  · exact endsInError_of_raise .addressError s.entropy
      ((exec_derive_valid hc hpw hsalt).trans (checkRegions_outside hout))
  · rw [exec_derive_valid hc hpw hsalt, checkRegions_inside hin, deriveFinish_unwritten hread]
  · rw [exec_derive_valid hc hpw hsalt, checkRegions_inside hin, deriveFinish_written hreadPw hreadSalt]
    have hlen : (out pw salt).length = 32 := stretchA_derive_length _ _ _
    obtain ⟨hends, hholds, hsame⟩ := complete_memWrite s 32 r.dst.toNat (out pw salt) hlen
    exact ⟨_, rfl, hends, rfl, hlen, hholds, hsame⟩

end Sys2Proof.Machine

/-! What a command's result depends on (70_reset_and_hazards.md R242): two runs of a command that read the same bytes end
alike. -/

namespace Sys2Proof.Machine

/-- MEM[x] is one of the bytes command i writes when it succeeds: the result at DST, and the key for ENC.G. -/
def IsOutput (i : Instr) (r : Regs) (x : Nat) : Prop :=
  (r.dst.toNat ≤ x ∧ x < r.dst.toNat + resultLength i r) ∨ (i = .encG ∧ r.key.toNat ≤ x ∧ x < r.key.toNat + 32)

/-- If the first outcome is a state, so is the second, with the same STATUS and RES_LEN and, after success, the same bytes
of output. -/
def SameResult (i : Instr) (r : Regs) (o1 o2 : Out) : Prop :=
  ∀ t1, o1 = .next t1 → ∃ t2, o2 = .next t2 ∧ t2.status = t1.status ∧ t2.resLen = t1.resLen ∧
    (t1.status = 0x2 → ∀ x, IsOutput i r x → readByte t2.mem x = readByte t1.mem x)

section

variable {i : Instr} {r : Regs} {s1 s2 : State}

theorem sameResult_raise (e : ErrorCode) (s1 s2 : State) :
    SameResult i r (.next (raiseError e s1)) (.next (raiseError e s2)) := by
  rintro _ ⟨⟩
  exact ⟨_, rfl, rfl, rfl, fun hdone => absurd hdone (statusError_ne_done e)⟩

theorem sameResult_complete (n : Nat) (h : ∀ x, IsOutput i r x → readByte s2.mem x = readByte s1.mem x) :
    SameResult i r (.next (complete n s1)) (.next (complete n s2)) := by
  rintro _ ⟨⟩
  exact ⟨_, rfl, rfl, rfl, fun _ => h⟩

theorem sameResult_ite {p : Prop} [Decidable p] {yes1 no1 yes2 no2 : Out} (hyes : SameResult i r yes1 yes2)
    (hno : ¬p → SameResult i r no1 no2) : SameResult i r (if p then yes1 else no1) (if p then yes2 else no2) := by
  by_cases hp : p
  · rwa [if_pos hp, if_pos hp]
  · rw [if_neg hp, if_neg hp]
    exact hno hp

theorem sameResult_memRead {a n : Nat} {go1 go2 : Bytes → Out} (hread : readBytes s1.mem a n = readBytes s2.mem a n)
    (h : ∀ b, b.length = n → SameResult i r (go1 b) (go2 b)) :
    SameResult i r (memRead s1 a n go1) (memRead s2 a n go2) := by
  cases hb : readBytes s1.mem a n with
  | none =>
    rw [memRead_none hb]
    exact nofun
  | some b =>
    rw [memRead_some hb, memRead_some (hread ▸ hb)]
    exact h b (readBytes_length hb)

theorem sameResult_checkRegions (hparams : s1.params = s2.params) (regions : List (Nat × Nat)) {go1 go2 : Out}
    (h : SameResult i r go1 go2) : SameResult i r (checkRegions s1 regions go1) (checkRegions s2 regions go2) := by
  have hregions : RegionsInMem s1 regions ↔ RegionsInMem s2 regions := by rw [RegionsInMem, RegionsInMem, hparams]
  by_cases hin : RegionsInMem s1 regions
  · rwa [checkRegions_inside hin, checkRegions_inside (hregions.mp hin)]
  · rw [checkRegions_outside hin, checkRegions_outside (hregions.not.mp hin)]
    exact sameResult_raise _ _ _

/-- After the same bytes are written, an address among them reads alike, and any other as it did before. -/
theorem readByte_writeBytes_congr {m1 m2 : Memory} {a x : Nat} {b : Bytes}
    (h : ¬(a ≤ x ∧ x < a + b.length) → readByte m2 x = readByte m1 x) :
    readByte (writeBytes m2 a b) x = readByte (writeBytes m1 a b) x := by
  rw [readByte_writeBytes, readByte_writeBytes]
  split
  · rfl
  · exact h ‹_›

/-- Two completions that write the same result at DST. -/
theorem sameResult_write (hi : i ≠ .encG) {n : Nat} {out : Bytes} (hlen : out.length = resultLength i r) :
    SameResult i r (.next (complete n (memWrite r.dst.toNat out s1)))
      (.next (complete n (memWrite r.dst.toNat out s2))) := by
  refine sameResult_complete n fun x hx => readByte_writeBytes_congr fun hout => ?_
  rcases hx with hdst | ⟨henc, -⟩
  · exact absurd (hlen ▸ hdst) hout
  · exact absurd henc hi

/-- Two completions of a reset command, which writes nothing. -/
theorem sameResult_nothing (hi : i ≠ .encG) (hlen : resultLength i r = 0) :
    SameResult i r (.next (complete 0 s1)) (.next (complete 0 s2)) := by
  refine sameResult_complete 0 fun x hx => ?_
  rcases hx with ⟨hlo, hhi⟩ | ⟨henc, -⟩
  · omega
  · exact absurd henc hi

theorem sameResult_hashCommand (hi : i ≠ .encG) (hparams : s1.params = s2.params)
    (hread : readBytes s1.mem r.src.toNat r.srcLen.toNat = readBytes s2.mem r.src.toNat r.srcLen.toNat)
    {n : Nat} {out : Bytes → Bytes} (hlen : ∀ data, (out data).length = resultLength i r) :
    SameResult i r (hashCommand s1 r n out) (hashCommand s2 r n out) :=
  sameResult_checkRegions hparams [(r.src.toNat, r.srcLen.toNat), (r.dst.toNat, n)]
    (sameResult_memRead hread fun data _ => sameResult_write hi (hlen data))

theorem sameResult_cipherCommand (hparams : s1.params = s2.params) {n : Nat} {go1 go2 : Out}
    (h : SameResult i r go1 go2) : SameResult i r (cipherCommand s1 r n go1) (cipherCommand s2 r n go2) :=
  sameResult_checkRegions hparams [(r.src.toNat, r.srcLen.toNat), (r.key.toNat, 32), (r.dst.toNat, n)] h

theorem sameResult_keyedCommand (hparams : s1.params = s2.params) {n : Nat} {go1 go2 : Out}
    (h : SameResult i r go1 go2) : SameResult i r (keyedCommand s1 r n go1) (keyedCommand s2 r n go2) :=
  sameResult_ite (sameResult_raise _ _ _) fun _ => sameResult_cipherCommand hparams h

theorem sameResult_readInputAndKey {go1 go2 : Bytes → Bytes → Out}
    (hinput : readBytes s1.mem r.src.toNat r.srcLen.toNat = readBytes s2.mem r.src.toNat r.srcLen.toNat)
    (hkey : readBytes s1.mem r.key.toNat 32 = readBytes s2.mem r.key.toNat 32)
    (h : ∀ input key, input.length = r.srcLen.toNat → SameResult i r (go1 input key) (go2 input key)) :
    SameResult i r (readInputAndKey s1 r go1) (readInputAndKey s2 r go2) :=
  sameResult_memRead hinput fun input hlen => sameResult_memRead hkey fun key _ => h input key hlen

/-- ENC from the IV draw on, over equal data and key. -/
theorem sameResult_encFinish (hparams : s1.params = s2.params) (hentropy : s1.entropy = s2.entropy) (key : Bytes)
    {data : Bytes} (hdata : data.length = r.srcLen.toNat) :
    SameResult .enc r (.next (encFinish r key data s1)) (.next (encFinish r key data s2)) := by
  rcases hiv : entropyDraw 16 s1.entropy with ⟨_ | iv, e⟩
  · rw [encFinish_ivFails hiv, encFinish_ivFails (hentropy ▸ hiv)]
    exact sameResult_raise _ _ _
  · rw [encFinish_draws hiv, encFinish_draws (hentropy ▸ hiv), hparams]
    exact sameResult_write (by decide) (envelope_length_of_draw _ key hiv hdata)

/-- ENC.G from the key draw on, over equal data: the envelope is written over the key, which is written over MEM. -/
theorem sameResult_encGFinish (hparams : s1.params = s2.params) (hentropy : s1.entropy = s2.entropy)
    {data : Bytes} (hdata : data.length = r.srcLen.toNat) :
    SameResult .encG r (.next (encGFinish r data s1)) (.next (encGFinish r data s2)) := by
  rcases hkey : entropyDraw 32 s1.entropy with ⟨_ | key, e1⟩
  · rw [encGFinish_keyFails hkey, encGFinish_keyFails (hentropy ▸ hkey)]
    exact sameResult_raise _ _ _
  rcases hiv : entropyDraw 16 e1 with ⟨_ | iv, e⟩
  · rw [encGFinish_ivFails hkey hiv, encGFinish_ivFails (hentropy ▸ hkey) hiv]
    exact sameResult_raise _ _ _
  · rw [encGFinish_draws hkey hiv, encGFinish_draws (hentropy ▸ hkey) hiv, hparams]
    have hlen := envelope_length_of_draw s2.params.cipher key hiv hdata
    refine sameResult_complete _ fun x hx => readByte_writeBytes_congr fun hdst => readByte_writeBytes_congr fun hout => ?_
    rcases hx with hx | ⟨-, hx⟩
    · rw [hlen] at hdst
      exact absurd hx hdst
    · rw [entropyDraw_length hkey] at hout
      exact absurd hx hout

end

/-- Every command, run on two states that agree on what it may look at. -/
theorem exec_sameResult {i : Instr} {s1 s2 : State} {c : Snapshot} (hc1 : s1.pending = some c) (hc2 : s2.pending = some c)
    (hparams : s1.params = s2.params) (hentropy : i = .enc ∨ i = .encG → s1.entropy = s2.entropy)
    (hinput : ∀ x, isInput i c.regs x → readByte s1.mem x = readByte s2.mem x) :
    SameResult i c.regs (exec i s1) (exec i s2) := by
  have hread {a n : Nat} (h : ∀ x, a ≤ x ∧ x < a + n → isInput i c.regs x) :
      readBytes s1.mem a n = readBytes s2.mem a n :=
    readBytes_congr fun k hk => hinput _ (h _ ⟨by omega, by omega⟩)
  cases i with
  | hasha =>
    rw [exec_hasha hc1, exec_hasha hc2, hparams]
    exact sameResult_hashCommand (by decide) hparams (hread fun _ h => h) fun _ => hashA_length _ _ _ _
  | hashb =>
    rw [exec_hashb hc1, exec_hashb hc2, hparams]
    exact sameResult_hashCommand (by decide) hparams (hread fun _ h => h) fun _ => hashB_length _ _ _
  | hashc =>
    rw [exec_hashc hc1, exec_hashc hc2, hparams]
    exact sameResult_hashCommand (by decide) hparams (hread fun _ h => h) fun _ => hashC_length _ _ _ _
  | rsta =>
    rw [exec_rsta hc1, exec_rsta hc2]
    exact sameResult_nothing (by decide) rfl
  | rstb =>
    rw [exec_rstb hc1, exec_rstb hc2]
    exact sameResult_nothing (by decide) rfl
  | rstc =>
    rw [exec_rstc hc1, exec_rstc hc2]
    exact sameResult_nothing (by decide) rfl
  | enc =>
    rw [exec_enc hc1, exec_enc hc2]
    exact sameResult_keyedCommand hparams (sameResult_readInputAndKey (hread fun _ => .inl) (hread fun _ => .inr)
      fun _ key hlen => sameResult_encFinish hparams (hentropy (.inl rfl)) key hlen)
  | encG =>
    rw [exec_encG hc1, exec_encG hc2]
    exact sameResult_cipherCommand hparams (sameResult_memRead (hread fun _ h => h)
      fun _ hlen => sameResult_encGFinish hparams (hentropy (.inr rfl)) hlen)
  | dec =>
    rw [exec_dec hc1, exec_dec hc2]
    refine sameResult_keyedCommand hparams (sameResult_ite (sameResult_raise _ _ _) fun _ => ?_)
    rw [hparams]
    exact sameResult_readInputAndKey (hread fun _ => .inl) (hread fun _ => .inr)
      fun env key hlen => sameResult_write (by decide) (by simp [resultLength, hlen])
  | stretch =>
    rw [exec_stretch hc1, exec_stretch hc2, hparams]
    exact sameResult_ite (sameResult_raise _ _ _) fun hvalid =>
      sameResult_hashCommand (by decide) hparams (hread fun _ h => h)
        fun _ => stretchA_length_of_ne_zero (not_or.mp hvalid).1 _ _ _ _
  | derive =>
    rw [exec_derive hc1, exec_derive hc2]
    refine sameResult_ite (sameResult_raise _ _ _) fun _ => sameResult_checkRegions hparams _ ?_
    rw [deriveFinish, deriveFinish, hparams]
    exact sameResult_memRead (hread fun _ => .inl) fun pw _ => sameResult_memRead (hread fun _ => .inr)
      fun salt _ => sameResult_write (by decide) (stretchA_derive_length _ _ _)

/-- Settles O24: the two regions of `IsOutput`, one for each clause. -/
theorem resultsDependOnlyOnInputs : Obligations.ResultsDependOnlyOnInputs := by
  intro i s1 s2 t1 c hc1 hc2 hparams hentropy hinput h1
  obtain ⟨t2, h2, hstatus, hlen, hsame⟩ := exec_sameResult hc1 hc2 hparams hentropy hinput t1 h1
  exact ⟨t2, h2, hstatus, hlen, fun hdone => ⟨fun x hlo hhi => hsame hdone x (.inl ⟨hlo, hhi⟩),
    fun hi x hlo hhi => hsame hdone x (.inr ⟨hi, hlo, hhi⟩)⟩⟩

end Sys2Proof.Machine

/-! The round trip of the cipher (43_ctr_cipher.md R167): CTR is its own inverse, and a DEC over an envelope reads back the
IV and the ciphertext it is made of. -/

namespace Sys2Proof.Machine

/-- XOR with one keystream twice gives the data back, where the keystream covers the data. -/
theorem xorBytes_xorBytes {data stream : Bytes} (h : data.length ≤ stream.length) :
    xorBytes (xorBytes data stream) stream = data := by
  induction data generalizing stream with
  | nil => rfl
  | cons d rest ih =>
    cases stream with
    | nil => simp at h
    | cons k more =>
      have hd : d ^^^ k ^^^ k = d := by rw [BitVec.xor_assoc, BitVec.xor_self, BitVec.xor_zero]
      have hrest := ih (stream := more) (by simpa using h)
      simp only [xorBytes, List.zipWith_cons_cons] at hrest ⊢
      rw [hd, hrest]

/-- CTR is its own inverse (R163). -/
theorem ctrCrypt_ctrCrypt (c : CipherChoice) (key iv data : Bytes) :
    ctrCrypt c key iv (ctrCrypt c key iv data) = data := by
  have hcover : data.length ≤
      (keystream c key ((data.length + 15) / 16) (BitVec.ofNat 128 (fromBe iv))).length := by
    rw [keystream_length]
    omega
  rw [ctrCrypt, ctrCrypt_length]
  exact xorBytes_xorBytes hcover

/-- Decrypting an envelope under its key gives the data (R164, R165). -/
theorem decrypt_envelope (c : CipherChoice) (key : Bytes) {iv : Bytes} (hiv : iv.length = 16) (data : Bytes) :
    ctrCrypt c key ((envelope c key iv data).take 16) ((envelope c key iv data).drop 16) = data := by
  rw [envelope, List.take_left' hiv, List.drop_left' hiv, ctrCrypt_ctrCrypt]

theorem readBytes_of_memHolds {t : State} {a n : Nat} {b : Bytes} (hlen : b.length = n) (h : memHolds t a b) :
    readBytes t.mem a n = some b :=
  (readBytes_eq_some _ _ _ _).mpr ⟨hlen, fun i hi => h i (hlen ▸ hi)⟩

section

variable {s t : State} {r : Regs} {n : Nat} {go : Out} {data key : Bytes}

/-- A state with STATUS 0x2 is none that an error left. -/
theorem raiseError_not_done {e : ErrorCode} (h : Host.Outcome.next (raiseError e s) = (.next t : Out)) :
    t.status ≠ 0x2 := by
  cases h
  exact statusError_ne_done e

theorem cipherCommand_done (h : cipherCommand s r n go = .next t) (hdone : t.status = 0x2) : go = .next t := by
  by_cases hin : CipherRegionsInMem s r n
  · rwa [cipherCommand_inside hin] at h
  · rw [cipherCommand_outside hin] at h
    exact absurd hdone (raiseError_not_done h)

theorem keyedCommand_done (h : keyedCommand s r n go = .next t) (hdone : t.status = 0x2) : go = .next t := by
  by_cases hk : r.keyLen = 32
  · exact cipherCommand_done (keyedCommand_goodKey hk ▸ h) hdone
  · rw [keyedCommand_badKey hk] at h
    exact absurd hdone (raiseError_not_done h)

/-- ENC that succeeded wrote an envelope of the data it read, under the key it read. -/
theorem exec_enc_done {c : Snapshot} (hc : s.pending = some c) (h : exec .enc s = .next t) (hdone : t.status = 0x2)
    (hdata : readBytes s.mem c.regs.src.toNat c.regs.srcLen.toNat = some data)
    (hkey : readBytes s.mem c.regs.key.toNat 32 = some key) :
    ∃ iv, iv.length = 16 ∧ readBytes t.mem c.regs.dst.toNat (16 + c.regs.srcLen.toNat) =
      some (envelope s.params.cipher key iv data) := by
  rw [exec_enc hc] at h
  have hfinish := keyedCommand_done h hdone
  rw [readInputAndKey_written hdata hkey] at hfinish
  rcases hiv : entropyDraw 16 s.entropy with ⟨_ | iv, e⟩
  · rw [encFinish_ivFails hiv] at hfinish
    exact absurd hdone (raiseError_not_done hfinish)
  · rw [encFinish_draws hiv] at hfinish
    cases hfinish
    have hlen := envelope_length_of_draw s.params.cipher key hiv (readBytes_length hdata)
    exact ⟨iv, entropyDraw_length hiv, readBytes_of_memHolds hlen fun j hj => readByte_writeBytes_inside _ _ _ _ hj⟩

/-- ENC.G that succeeded wrote an envelope of the data it read, under the key it wrote, which still stands at KEY where the
envelope does not overlap it. -/
theorem exec_encG_done {c : Snapshot} (hc : s.pending = some c) (h : exec .encG s = .next t) (hdone : t.status = 0x2)
    (hdata : readBytes s.mem c.regs.src.toNat c.regs.srcLen.toNat = some data)
    (hkey : readBytes t.mem c.regs.key.toNat 32 = some key)
    (hapart : c.regs.key.toNat + 32 ≤ c.regs.dst.toNat ∨
      c.regs.dst.toNat + (16 + c.regs.srcLen.toNat) ≤ c.regs.key.toNat) :
    ∃ iv, iv.length = 16 ∧ readBytes t.mem c.regs.dst.toNat (16 + c.regs.srcLen.toNat) =
      some (envelope s.params.cipher key iv data) := by
  rw [exec_encG hc] at h
  have hfinish := cipherCommand_done h hdone
  rw [memRead_some hdata] at hfinish
  rcases hdraw : entropyDraw 32 s.entropy with ⟨_ | k, e1⟩
  · rw [encGFinish_keyFails hdraw] at hfinish
    exact absurd hdone (raiseError_not_done hfinish)
  rcases hiv : entropyDraw 16 e1 with ⟨_ | iv, e⟩
  · rw [encGFinish_ivFails hdraw hiv] at hfinish
    exact absurd hdone (raiseError_not_done hfinish)
  · rw [encGFinish_draws hdraw hiv] at hfinish
    cases hfinish
    have hlen := envelope_length_of_draw s.params.cipher k hiv (readBytes_length hdata)
    have hklen : k.length = 32 := entropyDraw_length hdraw
    obtain ⟨hholds, hkeyHolds, -⟩ :=
      readByte_writeBytes_writeBytes s.mem (a := c.regs.key.toNat) (b := c.regs.dst.toNat) (k := k) hlen
    have hwritten := (readBytes_eq_some _ _ _ _).mpr ⟨hklen, fun j hj => hkeyHolds j (by omega) (by omega)⟩
    obtain rfl : k = key := Option.some.inj (hwritten.symm.trans hkey)
    exact ⟨iv, entropyDraw_length hiv, readBytes_of_memHolds hlen hholds⟩

end

/-- Settles O53: either command leaves an envelope of the data under the key, and DEC's rule decrypts it. -/
theorem decryptsWhatWasEncrypted : Obligations.DecryptsWhatWasEncrypted := by
  intro i s t s2 c c2 data key hc h hdone hdata hi hparams hc2 hkeyLen hlen hsrc hkeyIn hdst henvRead hkeyRead
  obtain ⟨iv, hiv, henv⟩ : ∃ iv, iv.length = 16 ∧ readBytes t.mem c.regs.dst.toNat (16 + c.regs.srcLen.toNat) =
      some (envelope s.params.cipher key iv data) := by
    rcases hi with ⟨rfl, hkey⟩ | ⟨rfl, hkey, hapart⟩
    · exact exec_enc_done hc h hdone hdata hkey
    · exact exec_encG_done hc h hdone hdata hkey hapart
  have hplainLen : c2.regs.srcLen.toNat - 16 = c.regs.srcLen.toNat := by omega
  rw [← hparams] at hsrc hkeyIn hdst
  rw [← hplainLen] at hdst
  obtain ⟨-, hrule, -⟩ := decRule
  obtain ⟨-, -, -, -, hcompletes⟩ := hrule s2 c2 hc2
  obtain ⟨u, hu, hends, -, -, hholds, -⟩ :=
    hcompletes _ key hkeyLen ⟨hsrc, hkeyIn, hdst⟩ (by omega) (henvRead.trans henv) hkeyRead
  rw [hparams] at hholds
  beta_reduce at hholds
  rw [decrypt_envelope _ _ hiv] at hholds
  exact ⟨u, hu, hplainLen ▸ hends, hholds⟩

end Sys2Proof.Machine

/-! Scripts (30_encoding.md R77, R78): well-formed ones assemble, a statement's operations stand between those of its
neighbours, and a part of a script may be replaced by one that assembles alike. -/

namespace Sys2Proof.Machine

/-! ## Well-formed scripts -/

theorem mem_scriptLabels {l : Nat} {p : List Stmt} : l ∈ scriptLabels p ↔ Stmt.label l ∈ p := by
  induction p with
  | nil => simp [scriptLabels]
  | cons st rest ih => cases st <;> simp [scriptLabels, ih]

/-- A label that the script defines has a position in it. -/
theorem labelPos_of_mem {l : Nat} {p : List Stmt} (at0 : Nat) (h : Stmt.label l ∈ p) :
    ∃ pos, labelPos l at0 p = some pos := by
  induction p generalizing at0 with
  | nil => cases h
  | cons st rest ih =>
    by_cases hst : st = .label l
    · exact ⟨at0, by rw [labelPos, if_pos hst]⟩
    · obtain ⟨pos, hpos⟩ := ih (at0 + stmtSize st) ((List.mem_cons.mp h).resolve_left (Ne.symm hst))
      exact ⟨pos, by rw [labelPos, if_neg hst, hpos]⟩

/-- A statement whose branch, if it is one, goes to a label of the script expands. -/
theorem expandStmt_of_wf {script : List Stmt} {st : Stmt} (at0 : Nat) (h : Stmt.wf (scriptLabels script) st = true) :
    ∃ ops, expandStmt script at0 st = some ops := by
  cases st with
  | bnz t m l =>
    obtain ⟨pos, hpos⟩ := labelPos_of_mem 0 (mem_scriptLabels.mp (List.contains_iff_mem.mp h))
    exact ⟨_, by rw [expandStmt, hpos]; rfl⟩
  | b l =>
    obtain ⟨pos, hpos⟩ := labelPos_of_mem 0 (mem_scriptLabels.mp (List.contains_iff_mem.mp h))
    exact ⟨_, by rw [expandStmt, hpos]; rfl⟩
  | _ => exact ⟨_, rfl⟩

theorem assembleFrom_of_wf {script : List Stmt} (at0 : Nat) {q : List Stmt}
    (h : ∀ st ∈ q, Stmt.wf (scriptLabels script) st = true) : ∃ p, assembleFrom script at0 q = some p := by
  induction q generalizing at0 with
  | nil => exact ⟨[], rfl⟩
  | cons st rest ih =>
    obtain ⟨hst, hrest⟩ := List.forall_mem_cons.mp h
    obtain ⟨ops, hops⟩ := expandStmt_of_wf at0 hst
    obtain ⟨p, hp⟩ := ih (at0 + stmtSize st) hrest
    exact ⟨ops ++ p, by simp only [assembleFrom, hops, hp]⟩

theorem assemble_of_scriptWf {script : List Stmt} (h : scriptWf script = true) : ∃ p, assemble script = some p := by
  simp only [scriptWf, Bool.and_eq_true, List.all_eq_true] at h
  obtain ⟨-, hbranches⟩ := h
  exact assembleFrom_of_wf 0 hbranches

/-! ## A statement among others -/

theorem assembleFrom_singleton (script : List Stmt) (at0 : Nat) (st : Stmt) :
    assembleFrom script at0 [st] = expandStmt script at0 st := by
  cases h : expandStmt script at0 st <;> simp [assembleFrom, h]

/-- In a script that assembles, the operations of a statement stand between those of the statements around it. -/
theorem assemble_statement {before after : List Stmt} {st : Stmt} {ops p : List HostOp}
    (hst : expandStmt (before ++ [st] ++ after) (scriptSize before) st = some ops)
    (h : assemble (before ++ [st] ++ after) = some p) :
    ∃ x y, p = x ++ ops ++ y ∧ x.length = scriptSize before ∧ y.length = scriptSize after := by
  rw [assemble, assembleFrom_append, assembleFrom_append, Nat.zero_add] at h
  obtain ⟨xops, hxops, hyops⟩ := Option.bind_eq_some_iff.mp h
  obtain ⟨x, hx, hops⟩ := Option.bind_eq_some_iff.mp hxops
  obtain ⟨y, hy, rfl⟩ := Option.map_eq_some_iff.mp hyops
  rw [assembleFrom_singleton, hst, Option.map_some, Option.some.injEq] at hops
  subst hops
  exact ⟨x, y, rfl, assembleFrom_length hx, assembleFrom_length hy⟩

/-- A branch goes to the operation after its label. -/
theorem labelPos_of_eq_split {script pre post : List Stmt} {l : Nat} (h : script = pre ++ [Stmt.label l] ++ post)
    (hfirst : l ∉ scriptLabels pre) : labelPos l 0 script = some (scriptSize pre) :=
  h ▸ labelPos_of_split l pre post hfirst

/-! ## Replacing a part of a script -/

/-- A statement of the script branches to label l. -/
def BranchesTo (p : List Stmt) (l : Nat) : Prop := (∃ v m, Stmt.bnz v m l ∈ p) ∨ Stmt.b l ∈ p

theorem BranchesTo.mono {p q : List Stmt} {l : Nat} (hpq : p ⊆ q) (h : BranchesTo p l) : BranchesTo q l :=
  h.imp (fun ⟨v, m, hm⟩ => ⟨v, m, hpq hm⟩) fun hm => hpq hm

/-- A label that neither part defines stands where it stood, when parts of one size are exchanged. -/
theorem labelPos_replace {before after q q' : List Stmt} {l : Nat} (hsize : scriptSize q = scriptSize q')
    (hq : l ∉ scriptLabels q) (hq' : l ∉ scriptLabels q') :
    labelPos l 0 (before ++ q ++ after) = labelPos l 0 (before ++ q' ++ after) := by
  simp only [labelPos_append, labelPos_of_notMem l _ _ hq, labelPos_of_notMem l _ _ hq', scriptSize_append, hsize]

/-- Parts of one size that assemble alike may be exchanged, if no statement around them branches to a label of theirs. -/
theorem assemble_replace {before after q q' : List Stmt} (hsize : scriptSize q = scriptSize q')
    (hfresh : ∀ l, BranchesTo (before ++ after) l → l ∉ scriptLabels q ∧ l ∉ scriptLabels q')
    (hsame : assembleFrom (before ++ q ++ after) (scriptSize before) q =
      assembleFrom (before ++ q' ++ after) (scriptSize before) q') :
    assemble (before ++ q ++ after) = assemble (before ++ q' ++ after) := by
  have hpos (l : Nat) (h : BranchesTo (before ++ after) l) :
      labelPos l 0 (before ++ q ++ after) = labelPos l 0 (before ++ q' ++ after) :=
    labelPos_replace hsize (hfresh l h).1 (hfresh l h).2
  have hbefore (at0 : Nat) : assembleFrom (before ++ q ++ after) at0 before =
      assembleFrom (before ++ q' ++ after) at0 before :=
    assembleFrom_congr _ _ _ _ fun l h => hpos l (BranchesTo.mono (List.subset_append_left _ _) h)
  have hafter (at0 : Nat) : assembleFrom (before ++ q ++ after) at0 after =
      assembleFrom (before ++ q' ++ after) at0 after :=
    assembleFrom_congr _ _ _ _ fun l h => hpos l (BranchesTo.mono (List.subset_append_right _ _) h)
  simp only [assemble, assembleFrom_append, Nat.zero_add, scriptSize_append, hbefore, hafter, hsame, hsize]

/-- The same for parts that define no label and assemble alike in every script. -/
theorem assemble_replace_unlabelled {before after q q' : List Stmt} (hsize : scriptSize q = scriptSize q')
    (hq : scriptLabels q = []) (hq' : scriptLabels q' = [])
    (hsame : ∀ script script' at0, assembleFrom script at0 q = assembleFrom script' at0 q') :
    assemble (before ++ q ++ after) = assemble (before ++ q' ++ after) :=
  assemble_replace hsize (fun l _ => by simp [hq, hq']) (hsame _ _ _)

/-- `poll` and its expansion at any fresh label l: the branch goes back to the read, where l stands. -/
theorem assemble_poll {before after : List Stmt} {t l : Nat} (hlabel : l ∉ scriptLabels (before ++ after))
    (hbranch : ¬BranchesTo (before ++ after) l) :
    assemble (before ++ [Stmt.poll t] ++ after) =
      assemble (before ++ [Stmt.label l, Stmt.rd Reg.STATUS t, Stmt.bnz t 0x1 l] ++ after) := by
  have hbefore : l ∉ scriptLabels before := fun h => hlabel (by
    rw [scriptLabels_append]
    exact List.mem_append_left _ h)
  have hpos : labelPos l 0 (before ++ [Stmt.label l, Stmt.rd Reg.STATUS t, Stmt.bnz t 0x1 l] ++ after) =
      some (scriptSize before) :=
    labelPos_of_eq_split (post := [Stmt.rd Reg.STATUS t, Stmt.bnz t 0x1 l] ++ after) (by simp) hbefore
  refine assemble_replace rfl (fun l' hl' => ⟨List.not_mem_nil, ?_⟩) ?_
  · have hne : l' ≠ l := fun h => hbranch (h ▸ hl')
    simpa [scriptLabels] using hne
  · rw [assembleFrom_singleton]
    simp only [assembleFrom, expandStmt, hpos]
    rfl

/-- Settles O10: a plain statement by what it expands to, a pseudo-instruction by exchanging it for its expansion. -/
theorem pseudoInstructionsExpand : Obligations.PseudoInstructionsExpand := by
  refine ⟨fun script => assemble_of_scriptWf, ?_⟩
  intro before after t size assemblesTo
  refine ⟨fun r v p => assemble_statement rfl, fun r p => assemble_statement rfl, fun a b p => ?_, fun a n p => ?_,
    fun i p => assemble_statement rfl, fun w p => assemble_statement rfl, fun l p => assemble_statement rfl,
    fun m l pre post hsplit hfirst p => ?_, fun l pre post hsplit hfirst p => ?_,
    fun l hlabel hbnz hb => assemble_poll hlabel fun h => ?_, fun i => ?_, fun v => ?_, fun s n d => ?_, fun k n => ?_,
    fun a n => ?_, fun d s n => ?_, fun d s n => ?_, fun d s n => ?_⟩
  · exact assemble_statement (congrArg some (opsWrm_eq a b))
  · exact assemble_statement (by rw [expandStmt, opsRdm_eq])
  · exact assemble_statement (by rw [expandStmt, labelPos_of_eq_split hsplit hfirst]; rfl)
  · exact assemble_statement (by rw [expandStmt, labelPos_of_eq_split hsplit hfirst]; rfl)
  · rcases h with ⟨v, m, hm⟩ | hm
    · exact hbnz v m hm
    · exact hb hm
  all_goals exact assemble_replace_unlabelled rfl rfl rfl fun _ _ _ => rfl

end Sys2Proof.Machine
